-- ==== Sys2Proof/Word.lean ====
section
/-! DEFINITION. The word types: a byte of memory, the 32-bit value of a general-purpose register or an address, the
64-bit value of a `D` register (spec 00_scope.md R6, R9; 20_memory.md R32). -/

namespace Sys2Proof

/-- The unit of addressing (20_memory.md R32). -/
abbrev Byte := BitVec 8

/-- `bits(32)`: a general-purpose register, an `S` register or an address (XLEN = 32, 00_scope.md R6). -/
abbrev Word := BitVec 32

/-- `bits(64)`: a `D` register (10_state.md R26). -/
abbrev DWord := BitVec 64

end Sys2Proof
end

