-- ==== Sys2Proof/Config.lean ====
section
/-! DEFINITION. What an implementation fixes and the spec leaves open (00_scope.md R6), and the free values. The types
of the parameters are closed; the constants have no body, so nothing can be proved of their values. -/

namespace Sys2Proof

/-- The result of the parameter `FPAccess`, that is of `CheckVFPEnabled(TRUE)` (00_scope.md R6, 10_state.md R29). -/
inductive FpAccess where
  | enabled
  | undefined
  | hypTrap
deriving DecidableEq, Repr, Inhabited

/-- The permitted behaviours when `regs == 0` (parameter `CU_REGS0`, 40_vldm.md R86). -/
inductive CuRegs0 where
  | undef
  | nop
  | loadNone
deriving DecidableEq, Repr

/-- The permitted behaviours when the register range check fails (parameter `CU_RANGE`, 40_vldm.md R87). -/
inductive CuRange where
  | undef
  | nop
  | unknown
deriving DecidableEq, Repr

/-- The two kinds of `DataAbort` (60_exceptions.md R94). -/
inductive AbortKind where
  | alignment
  | other
deriving DecidableEq, Repr, Inhabited

/-- What a failed memory read reports: the kind and the word address (20_memory.md R35, R36). -/
structure Abort where
  kind : AbortKind
  addr : Word
deriving DecidableEq, Repr, Inhabited

/-- "Security state" (10_state.md R29). PRESUMED: the two states of the family; safe, since only the open
`Config.fpAccess` reads it. Log 2. -/
inductive Security where
  | secure
  | nonSecure
deriving DecidableEq, Repr

/-- "PE mode" (10_state.md R29). PRESUMED: the modes of the family (the spec names only Hyp); safe, since only the
open `Config.fpAccess` reads it. Log 2. -/
inductive PeMode where
  | user
  | fiq
  | irq
  | supervisor
  | monitor
  | abort
  | hyp
  | undefinedMode
  | system
deriving DecidableEq, Repr

/-- The inputs of `FPAccess` (10_state.md R29, R31). PRESUMED: the registers are 32 bits wide; safe, since only the
open `Config.fpAccess` reads them. Log 2. -/
structure EnableInputs where
  cpacr : Word
  nsacr : Word
  hcptr : Word
  fpexc : Word
  security : Security
  mode : PeMode
deriving DecidableEq, Repr

/-- "interrupt masks" (70_reset_and_hazards.md R112). PRESUMED: the three mask bits `A`, `I`, `F` of the family; safe, since
no rule reads them (60_exceptions.md R103). Log 2. -/
structure InterruptMasks where
  a : Bool
  i : Bool
  f : Bool
deriving DecidableEq, Repr

/-- `FPAccess` where the launch leaves it open (10_state.md R29, D6): a function of the enable inputs, of which
nothing is known. Log 6. -/
opaque Config.fpAccess : EnableInputs → FpAccess

/-- `MemAdmit(addr, 4)` where the launch leaves it open (20_memory.md R33, D14). Log 7. -/
opaque Config.memAdmit : Word → Bool

/-- `draw_32()`: the value of the draw with this number (00_scope.md R10). Log 12. -/
opaque Config.draw32 : Nat → Word

/-- `draw_64()`: the value of the draw with this number (00_scope.md R10). Log 12. -/
opaque Config.draw64 : Nat → DWord

/-- Whether the execution that begins at this draw number under `CU_RANGE = Unknown` makes a read that may abort, as
40_vldm.md R87 admits, and at which address. Log 10. -/
opaque Config.rangeRead : Nat → Option Word

end Sys2Proof
end

