-- ==== Sys2Proof/Syntax.lean ====
section
/-! DEFINITION. The instructions: one constructor for each of the 26 rows of spec/opcode_table.json, with the fields
that the row's diagram leaves variable (30_encoding.md R50 to R53, R59, R60, R62, R64), named as the diagrams name them
and in the order of the word. `imm7` is `imm8[7:1]` of the classes A1 and T1, whose `imm8[0]` is fixed. -/

namespace Sys2Proof

/-- `CurrentInstrSet()`: A64 cannot occur (10_state.md R23). -/
inductive InstrSet where
  | a32
  | t32
deriving DecidableEq, Repr

inductive Instr where
  /-- Row VLDMDB_A1: Decrement Before, A1, 40_vldm.md R78. -/
  | vldmdbA1 (cond : BitVec 4) (d : BitVec 1) (rn vd : BitVec 4) (imm7 : BitVec 7)
  /-- Row VLDM_A1: Increment After, A1, 40_vldm.md R77. -/
  | vldmA1 (cond : BitVec 4) (d w : BitVec 1) (rn vd : BitVec 4) (imm7 : BitVec 7)
  /-- Row VLDMDB_A2: Decrement Before, A2, 40_vldm.md R80. -/
  | vldmdbA2 (cond : BitVec 4) (d : BitVec 1) (rn vd : BitVec 4) (imm8 : BitVec 8)
  /-- Row VLDM_A2: Increment After, A2, 40_vldm.md R79. -/
  | vldmA2 (cond : BitVec 4) (d w : BitVec 1) (rn vd : BitVec 4) (imm8 : BitVec 8)
  /-- Row VLDMDB_T1: Decrement Before, T1, 40_vldm.md R82. -/
  | vldmdbT1 (d : BitVec 1) (rn vd : BitVec 4) (imm7 : BitVec 7)
  /-- Row VLDM_T1: Increment After, T1, 40_vldm.md R81. -/
  | vldmT1 (d w : BitVec 1) (rn vd : BitVec 4) (imm7 : BitVec 7)
  /-- Row VLDMDB_T2: Decrement Before, T2, 40_vldm.md R84. -/
  | vldmdbT2 (d : BitVec 1) (rn vd : BitVec 4) (imm8 : BitVec 8)
  /-- Row VLDM_T2: Increment After, T2, 40_vldm.md R83. -/
  | vldmT2 (d w : BitVec 1) (rn vd : BitVec 4) (imm8 : BitVec 8)
  /-- Row UNDEFINED_A1_PUW001: UNDEFINED, class A1, PUW = 001, 30_encoding.md R60. -/
  | undefA1Puw001 (cond : BitVec 4) (d : BitVec 1) (rn vd : BitVec 4) (imm7 : BitVec 7)
  /-- Row UNDEFINED_A1_PUW111: UNDEFINED, class A1, PUW = 111, 30_encoding.md R60. -/
  | undefA1Puw111 (cond : BitVec 4) (d : BitVec 1) (rn vd : BitVec 4) (imm7 : BitVec 7)
  /-- Row UNDEFINED_A2_PUW001: UNDEFINED, class A2, PUW = 001, 30_encoding.md R60. -/
  | undefA2Puw001 (cond : BitVec 4) (d : BitVec 1) (rn vd : BitVec 4) (imm8 : BitVec 8)
  /-- Row UNDEFINED_A2_PUW111: UNDEFINED, class A2, PUW = 111, 30_encoding.md R60. -/
  | undefA2Puw111 (cond : BitVec 4) (d : BitVec 1) (rn vd : BitVec 4) (imm8 : BitVec 8)
  /-- Row UNDEFINED_T1_PUW001: UNDEFINED, class T1, PUW = 001, 30_encoding.md R60. -/
  | undefT1Puw001 (d : BitVec 1) (rn vd : BitVec 4) (imm7 : BitVec 7)
  /-- Row UNDEFINED_T1_PUW111: UNDEFINED, class T1, PUW = 111, 30_encoding.md R60. -/
  | undefT1Puw111 (d : BitVec 1) (rn vd : BitVec 4) (imm7 : BitVec 7)
  /-- Row UNDEFINED_T2_PUW001: UNDEFINED, class T2, PUW = 001, 30_encoding.md R60. -/
  | undefT2Puw001 (d : BitVec 1) (rn vd : BitVec 4) (imm8 : BitVec 8)
  /-- Row UNDEFINED_T2_PUW111: UNDEFINED, class T2, PUW = 111, 30_encoding.md R60. -/
  | undefT2Puw111 (d : BitVec 1) (rn vd : BitVec 4) (imm8 : BitVec 8)
  /-- Row REDIRECT_MOV64_A1: SEE "Related encodings", class A1, PUW = 000, 30_encoding.md R62. -/
  | seeMov64A1 (cond : BitVec 4) (d : BitVec 1) (rn vd : BitVec 4) (imm7 : BitVec 7)
  /-- Row REDIRECT_VLDR_A1: SEE "VLDR", class A1, P = 1 and W = 0, 30_encoding.md R62. -/
  | seeVldrA1 (cond : BitVec 4) (u d : BitVec 1) (rn vd : BitVec 4) (imm7 : BitVec 7)
  /-- Row REDIRECT_MOV64_A2: SEE "Related encodings", class A2, PUW = 000, 30_encoding.md R62. -/
  | seeMov64A2 (cond : BitVec 4) (d : BitVec 1) (rn vd : BitVec 4) (imm8 : BitVec 8)
  /-- Row REDIRECT_VLDR_A2: SEE "VLDR", class A2, P = 1 and W = 0, 30_encoding.md R62. -/
  | seeVldrA2 (cond : BitVec 4) (u d : BitVec 1) (rn vd : BitVec 4) (imm8 : BitVec 8)
  /-- Row REDIRECT_MOV64_T1: SEE "Related encodings", class T1, PUW = 000, 30_encoding.md R62. -/
  | seeMov64T1 (d : BitVec 1) (rn vd : BitVec 4) (imm7 : BitVec 7)
  /-- Row REDIRECT_VLDR_T1: SEE "VLDR", class T1, P = 1 and W = 0, 30_encoding.md R62. -/
  | seeVldrT1 (u d : BitVec 1) (rn vd : BitVec 4) (imm7 : BitVec 7)
  /-- Row REDIRECT_MOV64_T2: SEE "Related encodings", class T2, PUW = 000, 30_encoding.md R62. -/
  | seeMov64T2 (d : BitVec 1) (rn vd : BitVec 4) (imm8 : BitVec 8)
  /-- Row REDIRECT_VLDR_T2: SEE "VLDR", class T2, P = 1 and W = 0, 30_encoding.md R62. -/
  | seeVldrT2 (u d : BitVec 1) (rn vd : BitVec 4) (imm8 : BitVec 8)
  /-- Row REDIRECT_FLDMX_A32: SEE "FLDM*X", A32, 30_encoding.md R64. -/
  | seeFldmxA32 (cond : BitVec 4) (p u d w : BitVec 1) (rn vd : BitVec 4) (imm7 : BitVec 7)
  /-- Row REDIRECT_FLDMX_T32: SEE "FLDM*X", T32, 30_encoding.md R64. -/
  | seeFldmxT32 (p u d w : BitVec 1) (rn vd : BitVec 4) (imm7 : BitVec 7)
deriving DecidableEq, Repr

/-- The instruction set whose words the constructor's words are (30_encoding.md R49). -/
def Instr.iset : Instr → InstrSet
  | .vldmdbA1 _ _ _ _ _ => .a32
  | .vldmA1 _ _ _ _ _ _ => .a32
  | .vldmdbA2 _ _ _ _ _ => .a32
  | .vldmA2 _ _ _ _ _ _ => .a32
  | .vldmdbT1 _ _ _ _ => .t32
  | .vldmT1 _ _ _ _ _ => .t32
  | .vldmdbT2 _ _ _ _ => .t32
  | .vldmT2 _ _ _ _ _ => .t32
  | .undefA1Puw001 _ _ _ _ _ => .a32
  | .undefA1Puw111 _ _ _ _ _ => .a32
  | .undefA2Puw001 _ _ _ _ _ => .a32
  | .undefA2Puw111 _ _ _ _ _ => .a32
  | .undefT1Puw001 _ _ _ _ => .t32
  | .undefT1Puw111 _ _ _ _ => .t32
  | .undefT2Puw001 _ _ _ _ => .t32
  | .undefT2Puw111 _ _ _ _ => .t32
  | .seeMov64A1 _ _ _ _ _ => .a32
  | .seeVldrA1 _ _ _ _ _ _ => .a32
  | .seeMov64A2 _ _ _ _ _ => .a32
  | .seeVldrA2 _ _ _ _ _ _ => .a32
  | .seeMov64T1 _ _ _ _ => .t32
  | .seeVldrT1 _ _ _ _ _ => .t32
  | .seeMov64T2 _ _ _ _ => .t32
  | .seeVldrT2 _ _ _ _ _ => .t32
  | .seeFldmxA32 _ _ _ _ _ _ _ _ => .a32
  | .seeFldmxT32 _ _ _ _ _ _ _ => .t32

end Sys2Proof
end

