-- ==== Sys2Proof/WellFormed.lean ====
section
/-! DEFINITION. Which terms of `Instr` are instructions: the one constraint that the diagrams put on a variable field is
`cond != 1111` in the A32 rows (30_encoding.md R50, R51, R63). -/

namespace Sys2Proof

/-- `cond != 1111`, the constraint of every A32 row (30_encoding.md R50, R51). -/
def condFieldOk (cond : BitVec 4) : Bool := cond != 0b1111#4

/-- The instruction's fields meet the constraints of its row. -/
def Instr.wf : Instr → Bool
  | .vldmdbA1 cond _ _ _ _ => condFieldOk cond
  | .vldmA1 cond _ _ _ _ _ => condFieldOk cond
  | .vldmdbA2 cond _ _ _ _ => condFieldOk cond
  | .vldmA2 cond _ _ _ _ _ => condFieldOk cond
  | .vldmdbT1 _ _ _ _ => true
  | .vldmT1 _ _ _ _ _ => true
  | .vldmdbT2 _ _ _ _ => true
  | .vldmT2 _ _ _ _ _ => true
  | .undefA1Puw001 cond _ _ _ _ => condFieldOk cond
  | .undefA1Puw111 cond _ _ _ _ => condFieldOk cond
  | .undefA2Puw001 cond _ _ _ _ => condFieldOk cond
  | .undefA2Puw111 cond _ _ _ _ => condFieldOk cond
  | .undefT1Puw001 _ _ _ _ => true
  | .undefT1Puw111 _ _ _ _ => true
  | .undefT2Puw001 _ _ _ _ => true
  | .undefT2Puw111 _ _ _ _ => true
  | .seeMov64A1 cond _ _ _ _ => condFieldOk cond
  | .seeVldrA1 cond _ _ _ _ _ => condFieldOk cond
  | .seeMov64A2 cond _ _ _ _ => condFieldOk cond
  | .seeVldrA2 cond _ _ _ _ _ => condFieldOk cond
  | .seeMov64T1 _ _ _ _ => true
  | .seeVldrT1 _ _ _ _ _ => true
  | .seeMov64T2 _ _ _ _ => true
  | .seeVldrT2 _ _ _ _ _ => true
  | .seeFldmxA32 cond _ _ _ _ _ _ _ => condFieldOk cond
  | .seeFldmxT32 _ _ _ _ _ _ _ => true

end Sys2Proof
end

