-- ==== Sys2Proof/Decode.lean ====
section
/-! DEFINITION. The decoder, total on any bytes and rejecting by name, and after it the encoder, both from the tables of
30_encoding.md (R50 to R53, R58, R60, R62 to R66); how the bytes of an instruction lie in memory (20_memory.md R48); and
`decodeTableWord`, which reads a word numbered as spec/opcode_table.json numbers it. -/

namespace Sys2Proof

/-- Why bytes are no instruction of the spec. -/
inductive DecodeReject where
  /-- An A32 word with `cond == 1111` (30_encoding.md R63). -/
  | cond1111
  /-- A word that matches none of the diagrams (30_encoding.md R65). -/
  | noDiagram
  /-- A T32 halfword that does not begin a 32-bit instruction (30_encoding.md R66, R65). -/
  | shortT32
  /-- Fewer bytes than an instruction has (30_encoding.md R49). -/
  | truncated
deriving DecidableEq, Repr

/-- What `decode` answers. -/
abbrev Decoded := Except DecodeReject Instr

/-! ## Bytes and words (20_memory.md R48) -/

/-- The A32 word at four bytes: little-endian, the byte at `pc` in bits 7:0. -/
def wordOfBytesA32 (b0 b1 b2 b3 : Byte) : BitVec 32 := b3 ++ b2 ++ b1 ++ b0

/-- A T32 halfword: little-endian. -/
def halfwordOfBytes (b0 b1 : Byte) : BitVec 16 := b1 ++ b0

/-- `hw1:hw2`, the first halfword in bits 31:16 (00_scope.md R7). -/
def wordOfHalfwords (hw1 hw2 : BitVec 16) : BitVec 32 := hw1 ++ hw2

/-- A first halfword that begins a 32-bit T32 instruction: bits 15:11 are 11101, 11110 or 11111 (30_encoding.md R66). -/
def beginsWideT32 (hw1 : BitVec 16) : Bool :=
  hw1.extractLsb' 11 5 == 0b11101#5 || hw1.extractLsb' 11 5 == 0b11110#5 || hw1.extractLsb' 11 5 == 0b11111#5

/-- The bytes of an instruction's word in the order of their addresses. -/
def bytesOfWord : InstrSet → BitVec 32 → List Byte
  | .a32, w => [w.extractLsb' 0 8, w.extractLsb' 8 8, w.extractLsb' 16 8, w.extractLsb' 24 8]
  | .t32, w => [w.extractLsb' 16 8, w.extractLsb' 24 8, w.extractLsb' 0 8, w.extractLsb' 8 8]

/-! ## The decoder -/

/-- The `P`, `U`, `W` map of class A1, in the order of the Decode block's tests (30_encoding.md R58). -/
def decodeA1 (cond : BitVec 4) (p u d w : BitVec 1) (rn vd : BitVec 4) (imm7 : BitVec 7) : Instr :=
  if p = 0#1 ∧ u = 0#1 ∧ w = 0#1 then .seeMov64A1 cond d rn vd imm7
  else if p = 1#1 ∧ w = 0#1 then .seeVldrA1 cond u d rn vd imm7
  else if p = u ∧ w = 1#1 then
    if p = 0#1 then .undefA1Puw001 cond d rn vd imm7 else .undefA1Puw111 cond d rn vd imm7
  else if u = 1#1 then .vldmA1 cond d w rn vd imm7
  else .vldmdbA1 cond d rn vd imm7

/-- The `P`, `U`, `W` map of class A2, in the order of the Decode block's tests (30_encoding.md R58). -/
def decodeA2 (cond : BitVec 4) (p u d w : BitVec 1) (rn vd : BitVec 4) (imm8 : BitVec 8) : Instr :=
  if p = 0#1 ∧ u = 0#1 ∧ w = 0#1 then .seeMov64A2 cond d rn vd imm8
  else if p = 1#1 ∧ w = 0#1 then .seeVldrA2 cond u d rn vd imm8
  else if p = u ∧ w = 1#1 then
    if p = 0#1 then .undefA2Puw001 cond d rn vd imm8 else .undefA2Puw111 cond d rn vd imm8
  else if u = 1#1 then .vldmA2 cond d w rn vd imm8
  else .vldmdbA2 cond d rn vd imm8

/-- The `P`, `U`, `W` map of class T1, in the order of the Decode block's tests (30_encoding.md R58). -/
def decodeT1 (p u d w : BitVec 1) (rn vd : BitVec 4) (imm7 : BitVec 7) : Instr :=
  if p = 0#1 ∧ u = 0#1 ∧ w = 0#1 then .seeMov64T1 d rn vd imm7
  else if p = 1#1 ∧ w = 0#1 then .seeVldrT1 u d rn vd imm7
  else if p = u ∧ w = 1#1 then
    if p = 0#1 then .undefT1Puw001 d rn vd imm7 else .undefT1Puw111 d rn vd imm7
  else if u = 1#1 then .vldmT1 d w rn vd imm7
  else .vldmdbT1 d rn vd imm7

/-- The `P`, `U`, `W` map of class T2, in the order of the Decode block's tests (30_encoding.md R58). -/
def decodeT2 (p u d w : BitVec 1) (rn vd : BitVec 4) (imm8 : BitVec 8) : Instr :=
  if p = 0#1 ∧ u = 0#1 ∧ w = 0#1 then .seeMov64T2 d rn vd imm8
  else if p = 1#1 ∧ w = 0#1 then .seeVldrT2 u d rn vd imm8
  else if p = u ∧ w = 1#1 then
    if p = 0#1 then .undefT2Puw001 d rn vd imm8 else .undefT2Puw111 d rn vd imm8
  else if u = 1#1 then .vldmT2 d w rn vd imm8
  else .vldmdbT2 d rn vd imm8

/-- The bits that all four diagrams fix below bit 28: bits 27:25, `L` and bits 11:10 (30_encoding.md R50 to R53). -/
def inLoadSpace (w : BitVec 32) : Bool :=
  w.extractLsb' 25 3 == 0b110#3 && w.extractLsb' 20 1 == 1#1 && w.extractLsb' 10 2 == 0b10#2

/-- `decode(w, A32)` (30_encoding.md R50, R51, R63 to R65). -/
def decodeA32 (w : BitVec 32) : Decoded :=
  let cond := w.extractLsb' 28 4
  let p := w.extractLsb' 24 1
  let u := w.extractLsb' 23 1
  let d := w.extractLsb' 22 1
  let wb := w.extractLsb' 21 1
  let rn := w.extractLsb' 16 4
  let vd := w.extractLsb' 12 4
  if cond = 0b1111#4 then .error .cond1111
  else if inLoadSpace w = false then .error .noDiagram
  else if w.extractLsb' 8 2 = 0b11#2 then
    if w.extractLsb' 0 1 = 1#1 then .ok (.seeFldmxA32 cond p u d wb rn vd (w.extractLsb' 1 7))
    else .ok (decodeA1 cond p u d wb rn vd (w.extractLsb' 1 7))
  else if w.extractLsb' 8 2 = 0b10#2 then .ok (decodeA2 cond p u d wb rn vd (w.extractLsb' 0 8))
  else .error .noDiagram

/-- `decode(hw1:hw2, T32)` (30_encoding.md R52, R53, R64, R65). -/
def decodeT32 (w : BitVec 32) : Decoded :=
  let p := w.extractLsb' 24 1
  let u := w.extractLsb' 23 1
  let d := w.extractLsb' 22 1
  let wb := w.extractLsb' 21 1
  let rn := w.extractLsb' 16 4
  let vd := w.extractLsb' 12 4
  if w.extractLsb' 28 4 ≠ 0b1110#4 ∨ inLoadSpace w = false then .error .noDiagram
  else if w.extractLsb' 8 2 = 0b11#2 then
    if w.extractLsb' 0 1 = 1#1 then .ok (.seeFldmxT32 p u d wb rn vd (w.extractLsb' 1 7))
    else .ok (decodeT1 p u d wb rn vd (w.extractLsb' 1 7))
  else if w.extractLsb' 8 2 = 0b10#2 then .ok (decodeT2 p u d wb rn vd (w.extractLsb' 0 8))
  else .error .noDiagram

/-- Decoding a word of an instruction set. -/
def decodeWord : InstrSet → BitVec 32 → Decoded
  | .a32, w => decodeA32 w
  | .t32, w => decodeT32 w

/-- Decoding the bytes at `pc` and after it in the current instruction set. -/
def decode : InstrSet → List Byte → Decoded
  | .a32, b0 :: b1 :: b2 :: b3 :: _ => decodeWord .a32 (wordOfBytesA32 b0 b1 b2 b3)
  | .a32, _ => .error .truncated
  | .t32, b0 :: b1 :: rest =>
    if beginsWideT32 (halfwordOfBytes b0 b1) then
      match rest with
      | b2 :: b3 :: _ => decodeWord .t32 (wordOfHalfwords (halfwordOfBytes b0 b1) (halfwordOfBytes b2 b3))
      | _ => .error .truncated
    else .error .shortT32
  | .t32, _ => .error .truncated

/-! ## The encoder -/

/-- The layout of bits 27:0 in all four classes (30_encoding.md R54), below the four bits `top`. -/
def loadWord (top : BitVec 4) (p u d w : BitVec 1) (rn vd : BitVec 4) (size : BitVec 2) (imm8 : BitVec 8) : BitVec 32 :=
  top ++ 0b110#3 ++ p ++ u ++ d ++ w ++ 1#1 ++ rn ++ vd ++ 0b10#2 ++ size ++ imm8

/-- Bits 31:28 of the T32 diagrams (30_encoding.md R52, R53). -/
def t32Top : BitVec 4 := 0b1110#4

/-- The word of an instruction, `hw1:hw2` for T32 (30_encoding.md R50 to R53, R58 to R60, R62, R64). -/
def encode : Instr → BitVec 32
  | .vldmdbA1 cond d rn vd imm7 => loadWord cond 1#1 0#1 d 1#1 rn vd 0b11#2 (imm7 ++ 0#1)
  | .vldmA1 cond d w rn vd imm7 => loadWord cond 0#1 1#1 d w rn vd 0b11#2 (imm7 ++ 0#1)
  | .vldmdbA2 cond d rn vd imm8 => loadWord cond 1#1 0#1 d 1#1 rn vd 0b10#2 imm8
  | .vldmA2 cond d w rn vd imm8 => loadWord cond 0#1 1#1 d w rn vd 0b10#2 imm8
  | .vldmdbT1 d rn vd imm7 => loadWord t32Top 1#1 0#1 d 1#1 rn vd 0b11#2 (imm7 ++ 0#1)
  | .vldmT1 d w rn vd imm7 => loadWord t32Top 0#1 1#1 d w rn vd 0b11#2 (imm7 ++ 0#1)
  | .vldmdbT2 d rn vd imm8 => loadWord t32Top 1#1 0#1 d 1#1 rn vd 0b10#2 imm8
  | .vldmT2 d w rn vd imm8 => loadWord t32Top 0#1 1#1 d w rn vd 0b10#2 imm8
  | .undefA1Puw001 cond d rn vd imm7 => loadWord cond 0#1 0#1 d 1#1 rn vd 0b11#2 (imm7 ++ 0#1)
  | .undefA1Puw111 cond d rn vd imm7 => loadWord cond 1#1 1#1 d 1#1 rn vd 0b11#2 (imm7 ++ 0#1)
  | .undefA2Puw001 cond d rn vd imm8 => loadWord cond 0#1 0#1 d 1#1 rn vd 0b10#2 imm8
  | .undefA2Puw111 cond d rn vd imm8 => loadWord cond 1#1 1#1 d 1#1 rn vd 0b10#2 imm8
  | .undefT1Puw001 d rn vd imm7 => loadWord t32Top 0#1 0#1 d 1#1 rn vd 0b11#2 (imm7 ++ 0#1)
  | .undefT1Puw111 d rn vd imm7 => loadWord t32Top 1#1 1#1 d 1#1 rn vd 0b11#2 (imm7 ++ 0#1)
  | .undefT2Puw001 d rn vd imm8 => loadWord t32Top 0#1 0#1 d 1#1 rn vd 0b10#2 imm8
  | .undefT2Puw111 d rn vd imm8 => loadWord t32Top 1#1 1#1 d 1#1 rn vd 0b10#2 imm8
  | .seeMov64A1 cond d rn vd imm7 => loadWord cond 0#1 0#1 d 0#1 rn vd 0b11#2 (imm7 ++ 0#1)
  | .seeVldrA1 cond u d rn vd imm7 => loadWord cond 1#1 u d 0#1 rn vd 0b11#2 (imm7 ++ 0#1)
  | .seeMov64A2 cond d rn vd imm8 => loadWord cond 0#1 0#1 d 0#1 rn vd 0b10#2 imm8
  | .seeVldrA2 cond u d rn vd imm8 => loadWord cond 1#1 u d 0#1 rn vd 0b10#2 imm8
  | .seeMov64T1 d rn vd imm7 => loadWord t32Top 0#1 0#1 d 0#1 rn vd 0b11#2 (imm7 ++ 0#1)
  | .seeVldrT1 u d rn vd imm7 => loadWord t32Top 1#1 u d 0#1 rn vd 0b11#2 (imm7 ++ 0#1)
  | .seeMov64T2 d rn vd imm8 => loadWord t32Top 0#1 0#1 d 0#1 rn vd 0b10#2 imm8
  | .seeVldrT2 u d rn vd imm8 => loadWord t32Top 1#1 u d 0#1 rn vd 0b10#2 imm8
  | .seeFldmxA32 cond p u d w rn vd imm7 => loadWord cond p u d w rn vd 0b11#2 (imm7 ++ 1#1)
  | .seeFldmxT32 p u d w rn vd imm7 => loadWord t32Top p u d w rn vd 0b11#2 (imm7 ++ 1#1)

/-- The bytes of an instruction in the order of their addresses. -/
def encodeBytes (i : Instr) : List Byte := bytesOfWord i.iset (encode i)

/-! ## A word of the opcode table -/

/-- The word of which `nbits` bits are given, the bits above them zero. -/
def tableWord (nbits w : Nat) : BitVec 32 := BitVec.ofNat 32 (w % 2 ^ nbits)

/-- The instruction set a table word is read in: T32 where bits 31:25 are the fixed pattern of the T32 rows, else A32.
A word of an A32 row with `cond == 1110` is the same number as one of a T32 row (30_encoding.md R54) and is read as
T32. DESIGN CHOICE; safe: it decides only how the host's table words are read. Log 28. -/
def tableIset (w : BitVec 32) : InstrSet := if w.extractLsb' 25 7 = 0b1110110#7 then .t32 else .a32

/-- The instruction this decoder reads from a word numbered as spec/opcode_table.json numbers it. -/
def decodeTableWord (nbits w : Nat) : Option Instr :=
  match decode (tableIset (tableWord nbits w)) (bytesOfWord (tableIset (tableWord nbits w)) (tableWord nbits w)) with
  | .ok i => some i
  | .error _ => none

end Sys2Proof
end

