-- ==== Sys2Proof/Machine/State.lean ====
section
/-! DEFINITION. The state of the machine (10_state.md R31 and the launch-state parameters of 00_scope.md R6) as plain
data, the fault and refusal reasons, and the state at reset. -/

namespace Sys2Proof.Machine

/-- A stretch of memory whose words may be read: `size` bytes from `base` (20_memory.md R33). -/
structure Region where
  base : Nat
  size : Nat
deriving DecidableEq, Repr

/-- Memory: the bytes that differ from what an unlisted address reads as, addresses strictly rising (20_memory.md R32). -/
abbrev Memory := List Host.Cell

/-- The state of the PE. Each field's rule and reset value stand in INVENTORY.md under State. -/
structure State where
  /-- `R[0..14]` (10_state.md R15). -/
  regs : Vector Word 15
  /-- The address of the instruction being executed (10_state.md R19). -/
  pc : Word
  /-- `CurrentInstrSet()` (10_state.md R23). -/
  iset : InstrSet
  /-- The condition flags `N`, `Z`, `C`, `V` (10_state.md R24). -/
  flagN : Bool
  flagZ : Bool
  flagC : Bool
  flagV : Bool
  /-- The inputs `it_cond` that the environment supplies to the T32 instructions still to come, the next one first
  (10_state.md R25). -/
  itConds : List (BitVec 4)
  /-- `D[0..31]`, of which `S[0..31]` is a view (10_state.md R26, R27). -/
  dregs : Vector DWord 32
  /-- `E`, the value of `BigEndian(AccessType_ASIMD)` (10_state.md R30). -/
  bigEndian : Bool
  /-- `CPSR.DIT` (10_state.md R30). -/
  dit : Bool
  /-- The inputs of `FPAccess` (10_state.md R29, R31). -/
  enable : EnableInputs
  /-- The interrupt masks (70_reset_and_hazards.md R112); no rule reads them (60_exceptions.md R103). -/
  intMasks : InterruptMasks
  /-- The parameter `FPAccess`: the value the launch supplies, or none where it is left open (00_scope.md R6). -/
  fpGrant : Option FpAccess
  /-- The parameter `MemAdmit`: the admitted regions the launch supplies, or none where it is left open
  (20_memory.md R33). -/
  admitted : Option (List Region)
  /-- The parameter `CU_REGS0`: the behaviour the launch supplies, or none where it is left open (40_vldm.md R86). -/
  cuRegs0 : Option CuRegs0
  /-- The parameter `CU_RANGE`: the behaviour the launch supplies, or none where it is left open (40_vldm.md R87). -/
  cuRange : Option CuRange
  /-- Memory (20_memory.md R32). -/
  mem : Memory
  /-- The MODEL's own field: the number of the next draw (00_scope.md R10). -/
  draws : Nat
deriving DecidableEq, Repr

/-- The exceptions (60_exceptions.md R94). A fault is terminal (R93): it carries the information of R94 and the state it
leaves, from which the model takes no step. -/
inductive Fault where
  /-- Raised by an UNDEFINED encoding whose condition passes (R95), by `CU_REGS0` or `CU_RANGE` at `Undef` (R86, R87) and
  by `FPAccess` at `Undefined` (R96), with the address of the instruction. Safe: the machine stops where a PE goes on. -/
  | undefinedInstruction (pc : Word) (left : State)
  /-- Raised by `FPAccess` at `HypTrap` (R97), with the address of the instruction. Safe: the machine stops where a PE
  goes on. -/
  | hypTrap (pc : Word) (left : State)
  /-- Raised by a memory read (R98, R99), with the kind and the word address. Safe: the machine stops where a PE goes
  on. -/
  | dataAbort (kind : AbortKind) (addr : Word) (left : State)
deriving DecidableEq, Repr

/-- The instructions that the spec redirects to and does not describe (30_encoding.md R62, R64). -/
inductive OtherInstr where
  | move64
  | vldr
  | fldmx
deriving DecidableEq, Repr

/-- Why the model gives a word no meaning at a state (00_scope.md R13). -/
inductive Refusal where
  /-- Answered by an arm of exec that has no meaning yet (none is left). Safe. -/
  | notModelled (mnemonic : String)
  /-- Answered by the redirect rows (30_encoding.md R62, R64). Safe: the spec gives these words no effect. -/
  | notThisInstruction (other : OtherInstr)
  /-- Answered by the step when the decoder rejects the bytes at `pc` (30_encoding.md R63, R65). Safe. -/
  | notInSpec (why : DecodeReject)
  /-- Answered by a VLDM whose base is the PC with writeback or in T32 (40_vldm.md R85). Safe. -/
  | unpredictablePcBase
  /-- Answered by a VLDM of an empty list while `CU_REGS0` is left open (40_vldm.md R86). Safe. -/
  | unpredictableEmptyList
  /-- Answered by a VLDM of a list too long while `CU_RANGE` is left open (40_vldm.md R87). Safe. -/
  | unpredictableRange
  /-- Answered by a VLDM whose byte range crosses 2^32 or 0 (20_memory.md R40). Safe. -/
  | addressWrap
  /-- Answered by the step when `pc` is not aligned for `iset` (10_state.md R22). Safe. -/
  | pcMisaligned
  /-- Answered by an instruction whose condition is `1111`, for which the table of 10_state.md R25 has no row: an
  ill-formed A32 term, or a T32 instruction whose `it_cond` input is `1111`. Safe. -/
  | noCondition
deriving DecidableEq, Repr

/-- The outcome of a step (00_scope.md R13). -/
abbrev Result := Host.Outcome State Fault Refusal

/-- The enable inputs at reset. PRESUMED: the family's (Armv8-A AArch32) reset values, 70_reset_and_hazards.md R112 gives
none; safe, since only the open `Config.fpAccess` reads them. Log 2. -/
def EnableInputs.atReset : EnableInputs where
  cpacr := 0x00000000#32
  nsacr := 0x00000000#32
  hcptr := 0x000033FF#32
  fpexc := 0x00000700#32
  security := .secure
  mode := .supervisor

/-- The interrupt masks at reset. PRESUMED: set, as the family resets them, 70_reset_and_hazards.md R112 gives none; safe,
since no rule reads them. Log 2. -/
def InterruptMasks.atReset : InterruptMasks where
  a := true
  i := true
  f := true

/-- The machine right after reset. The spec gives no reset value (70_reset_and_hazards.md R111, R112): each value here is
DESIGN CHOICE or PRESUMED, unsafe, in logs 1 to 5 and 12; the parameters `FPAccess`, `MemAdmit`, `CU_REGS0` and `CU_RANGE`
are left open (00_scope.md R6) and no `it_cond` input is supplied. -/
def State.reset : State where
  regs := Vector.replicate 15 0#32
  pc := 0#32
  iset := .a32
  flagN := false
  flagZ := false
  flagC := false
  flagV := false
  itConds := []
  dregs := Vector.replicate 32 0#64
  bigEndian := false
  dit := false
  enable := EnableInputs.atReset
  intMasks := InterruptMasks.atReset
  fpGrant := none
  admitted := none
  cuRegs0 := none
  cuRange := none
  mem := []
  draws := 0

end Sys2Proof.Machine
end

