-- ==== Sys2Proof/Machine/Ops.lean ====
section
/-! DEFINITION. The named operations over memory, registers and the program counter, the draws, and the raising of an
exception. -/

namespace Sys2Proof.Machine

/-! ## Memory -/

/-- What an unlisted address reads as. DESIGN CHOICE: 20_memory.md gives no contents of memory; unsafe. Log 5. -/
def unlistedByte : Byte := 0#8

/-- The byte at an address (20_memory.md R32, R44). -/
def Memory.read : Memory → Nat → Byte
  | [], _ => unlistedByte
  | (b, v) :: rest, a => if b = a then v else Memory.read rest a

/-- The memory with one byte changed, in canonical form again. No instruction writes memory (20_memory.md R32): the
launcher places a program with it. -/
def Memory.write : Memory → Nat → Byte → Memory
  | [], a, v => if v = unlistedByte then [] else [(a, v)]
  | (b, w) :: rest, a, v =>
    if a < b then (if v = unlistedByte then (b, w) :: rest else (a, v) :: (b, w) :: rest)
    else if a = b then (if v = unlistedByte then rest else (a, v) :: rest)
    else (b, w) :: Memory.write rest a v

/-- The canonical form: addresses inside the space of R32 and strictly rising, no entry equal to an unlisted byte. -/
def Memory.wf : Memory → Bool
  | [] => true
  | (a, v) :: rest =>
    decide (a < 2 ^ 32) && decide (v ≠ unlistedByte) && rest.all (fun c => decide (a < c.1)) && Memory.wf rest

/-- The byte at a 32-bit address. -/
def readByte (s : State) (a : Word) : Byte := s.mem.read a.toNat

/-- Bytes written at consecutive addresses, modulo 2^32 (00_scope.md R9). -/
def writeBytes : Memory → Word → List Byte → Memory
  | m, _, [] => m
  | m, a, b :: bs => writeBytes (m.write a.toNat b) (a + 1#32) bs

/-- The byte order inside a word (20_memory.md R37; PRESUMED there, GK8, log 17). -/
def assembleWord (bigEndian : Bool) (b0 b1 b2 b3 : Byte) : Word :=
  if bigEndian then b0 ++ b1 ++ b2 ++ b3 else b3 ++ b2 ++ b1 ++ b0

/-- The word that the four bytes at an address make under the data endianness. -/
def wordAt (s : State) (a : Word) : Word :=
  assembleWord s.bigEndian (readByte s a) (readByte s (a + 1#32)) (readByte s (a + 2#32)) (readByte s (a + 3#32))

/-- `addr[1:0] == 00` (20_memory.md R35). -/
def wordAligned (a : Word) : Bool := a.extractLsb' 0 2 == 0#2

/-- `MemAdmit(addr, 4)` (20_memory.md R33): the supplied regions hold all four bytes, or the open parameter says so. -/
def memAdmit (s : State) (a : Word) : Bool :=
  match s.admitted with
  | some regions => regions.any fun r => decide (r.base ≤ a.toNat) && decide (a.toNat + 4 ≤ r.base + r.size)
  | none => Config.memAdmit a

/-- `MemRead(addr, 4)`: the alignment check, the admission check, the bytes (20_memory.md R34 to R37). -/
def memRead (s : State) (a : Word) : Except Abort Word :=
  if wordAligned a = false then .error ⟨.alignment, a⟩
  else if memAdmit s a = false then .error ⟨.other, a⟩
  else .ok (wordAt s a)

/-- The abort that `MemRead(addr, 4)` raises; none where it returns a value (20_memory.md R35, R36). -/
def readAbort (s : State) (a : Word) : Option Abort :=
  match memRead s a with
  | .error e => some e
  | .ok _ => none

/-! ## Instruction fetch -/

/-- The alignment of instruction addresses (10_state.md R22). -/
def pcAligned (s : State) : Bool :=
  match s.iset with
  | .a32 => wordAligned s.pc
  | .t32 => s.pc.extractLsb' 0 1 == 0#1

/-- The bytes at `pc` and after it (20_memory.md R48; PRESUMED there, GK9, log 19). The addresses wrap modulo 2^32, so that a
T32 instruction at `0xFFFFFFFE` takes `hw2` from address 0. DESIGN CHOICE: R48 does not say where `hw2` lies there; unsafe.
Log 34. -/
def fetchBytes (s : State) : List Byte :=
  [readByte s s.pc, readByte s (s.pc + 1#32), readByte s (s.pc + 2#32), readByte s (s.pc + 3#32)]

/-- `pc` with the bits cleared that 10_state.md R22 requires to be zero. -/
def alignedPc (k : InstrSet) (pc : Word) : Word :=
  match k with
  | .a32 => pc &&& 0xFFFFFFFC#32
  | .t32 => pc &&& 0xFFFFFFFE#32

/-- The launcher's placing of one instruction word where the next step fetches it (20_memory.md R48; log 28). -/
def placeWord (s : State) (k : InstrSet) (w : BitVec 32) : State :=
  { s with iset := k, pc := alignedPc k s.pc, mem := writeBytes s.mem (alignedPc k s.pc) (bytesOfWord k w) }

/-! ## General-purpose registers and the program counter -/

/-- What a read of `R[15]` adds to the address of the instruction in A32 (10_state.md R20; PRESUMED there, GK2,
log 14). -/
def pcReadOffset : Word := 8#32

/-- `R[n]` (00_scope.md R10, 10_state.md R20). -/
def readReg (s : State) (n : BitVec 4) : Word :=
  if n = 15#4 then s.pc + pcReadOffset else s.regs[n.toNat]?.getD 0#32

/-- `R[n] <- v` for `n <= 14`. The PC is never written (40_vldm.md R89): `n == 15` with writeback is refused before this
is reached (R85), and here changes nothing. -/
def writeReg (s : State) (n : BitVec 4) (v : Word) : State :=
  { s with regs := s.regs.setIfInBounds n.toNat v }

/-- The end of an instruction of the class `k`: `pc <- pc + 4` modulo 2^32 (10_state.md R21), and for a T32 instruction
its `it_cond` input is used up (10_state.md R25; log 11). -/
def retire (k : InstrSet) (s : State) : State :=
  match k with
  | .a32 => { s with pc := s.pc + 4#32 }
  | .t32 => { s with pc := s.pc + 4#32, itConds := s.itConds.tail }

/-! ## SIMD&FP registers -/

/-- `D[i]`, `0 <= i <= 31` (10_state.md R26). -/
def readD (s : State) (i : Nat) : DWord := s.dregs[i]?.getD 0#64

/-- `D[i] <- v` (10_state.md R27: the `S` view follows). -/
def writeD (s : State) (i : Nat) (v : DWord) : State :=
  { s with dregs := s.dregs.setIfInBounds i v }

/-- `S[j]`: the low half of `D[j DIV 2]` for even `j`, the high half for odd `j` (10_state.md R27; PRESUMED there, GK6,
log 18). -/
def readS (s : State) (j : Nat) : Word :=
  if j % 2 = 0 then (readD s (j / 2)).extractLsb' 0 32 else (readD s (j / 2)).extractLsb' 32 32

/-- `S[j] <- v`: one half of `D[j DIV 2]` is replaced, the other kept (10_state.md R27). -/
def writeS (s : State) (j : Nat) (v : Word) : State :=
  writeD s (j / 2)
    (if j % 2 = 0 then (readD s (j / 2)).extractLsb' 32 32 ++ v else v ++ (readD s (j / 2)).extractLsb' 0 32)

/-! ## Draws (00_scope.md R10: an arbitrary value, chosen anew at each use) -/

/-- `S[j] <- draw_32()`. -/
def drawS (s : State) (j : Nat) : State :=
  { writeS s j (Config.draw32 s.draws) with draws := s.draws + 1 }

/-- `D[i] <- draw_64()`. -/
def drawD (s : State) (i : Nat) : State :=
  { writeD s i (Config.draw64 s.draws) with draws := s.draws + 1 }

/-- `R[n] <- draw_32()`. -/
def drawReg (s : State) (n : BitVec 4) : State :=
  { writeReg s n (Config.draw32 s.draws) with draws := s.draws + 1 }

/-- `S[d .. d+count-1] <- draw_32()`. -/
def drawListS : Nat → Nat → State → State
  | 0, _, s => s
  | count + 1, d, s => drawListS count (d + 1) (drawS s d)

/-- `D[d .. d+count-1] <- draw_64()`. -/
def drawListD : Nat → Nat → State → State
  | 0, _, s => s
  | count + 1, d, s => drawListD count (d + 1) (drawD s d)

/-! ## Exceptions -/

/-- The exceptions of 60_exceptions.md R94. -/
inductive Exc where
  | undefinedInstruction
  | hypTrap
  | dataAbort (a : Abort)
deriving DecidableEq, Repr

/-- `raise X(info)`: the instruction ends with a fault that carries the information of R94 and the state it leaves
(60_exceptions.md R93, R94, R102). The spec describes no entry and no return (R104, R105): nothing else changes. -/
def raise (x : Exc) (left : State) : Result :=
  match x with
  | .undefinedInstruction => .fault (.undefinedInstruction left.pc left)
  | .hypTrap => .fault (.hypTrap left.pc left)
  | .dataAbort a => .fault (.dataAbort a.kind a.addr left)

/-- `CheckVFPEnabled(TRUE)` as the parameter `FPAccess` (60_exceptions.md R96; log 6). -/
def fpAccess (s : State) : FpAccess := s.fpGrant.getD (Config.fpAccess s.enable)

end Sys2Proof.Machine
end

