-- ==== Sys2Proof/Machine/Flags.lean ====
section
/-! DEFINITION. The condition of execution (10_state.md R24, R25). No instruction writes a flag (R24), so the only flag
computation is the condition table. -/

namespace Sys2Proof.Machine

/-- Where the condition of an instruction comes from: its `cond` field in A32, the `it_cond` input in T32
(10_state.md R25). -/
inductive CondSource where
  | field (cond : BitVec 4)
  | itInput
deriving DecidableEq, Repr

/-- The condition table (10_state.md R25; PRESUMED there, GK4, log 15). It has no row for `1111`. -/
def condTable (cond : BitVec 4) (n z c v : Bool) : Option Bool :=
  match cond with
  | 0b0000#4 => some z
  | 0b0001#4 => some !z
  | 0b0010#4 => some c
  | 0b0011#4 => some !c
  | 0b0100#4 => some n
  | 0b0101#4 => some !n
  | 0b0110#4 => some v
  | 0b0111#4 => some !v
  | 0b1000#4 => some (c && !z)
  | 0b1001#4 => some (!c || z)
  | 0b1010#4 => some (n == v)
  | 0b1011#4 => some (n != v)
  | 0b1100#4 => some (!z && n == v)
  | 0b1101#4 => some (z || n != v)
  | 0b1110#4 => some true
  | _ => none

/-- The `it_cond` of the instruction: the next input, and `1110` when the environment supplies nothing
(10_state.md R25). -/
def itCond (s : State) : BitVec 4 := s.itConds.head?.getD 0b1110#4

/-- The condition an instruction is executed under. -/
def condOf (src : CondSource) (s : State) : BitVec 4 :=
  match src with
  | .field cond => cond
  | .itInput => itCond s

/-- `ConditionPassed()`; none where the table has no row. -/
def condOk (src : CondSource) (s : State) : Option Bool :=
  condTable (condOf src s) s.flagN s.flagZ s.flagC s.flagV

/-- `if ConditionPassed() then body`: a failed condition only advances `pc` (40_vldm.md R73, R88). -/
def conditional (k : InstrSet) (src : CondSource) (s : State) (body : Result) : Result :=
  match condOk src s with
  | some true => body
  | some false => .next (retire k s)
  | none => .refused .noCondition

end Sys2Proof.Machine
end

