-- ==== Sys2Proof/Machine/Redirect.lean ====
section
/-! DEFINITION. The ten redirect rows: words of other instructions, which the spec gives no meaning (30_encoding.md R62, R64). -/

namespace Sys2Proof.Machine

/-- Row REDIRECT_MOV64_A1: SEE "Related encodings", class A1, PUW = 000, 30_encoding.md R62, after the condition (40_vldm.md R74; log 24). -/
def execSeeMov64A1 (cond : BitVec 4) (_d : BitVec 1) (_rn _vd : BitVec 4) (_imm7 : BitVec 7) (s : State) : Result :=
  conditional .a32 (.field cond) s (.refused (.notThisInstruction .move64))

/-- Row REDIRECT_VLDR_A1: SEE "VLDR", class A1, P = 1 and W = 0, 30_encoding.md R62, after the condition (40_vldm.md R74; log 24). -/
def execSeeVldrA1 (cond : BitVec 4) (_u _d : BitVec 1) (_rn _vd : BitVec 4) (_imm7 : BitVec 7) (s : State) : Result :=
  conditional .a32 (.field cond) s (.refused (.notThisInstruction .vldr))

/-- Row REDIRECT_MOV64_A2: SEE "Related encodings", class A2, PUW = 000, 30_encoding.md R62, after the condition (40_vldm.md R74; log 24). -/
def execSeeMov64A2 (cond : BitVec 4) (_d : BitVec 1) (_rn _vd : BitVec 4) (_imm8 : BitVec 8) (s : State) : Result :=
  conditional .a32 (.field cond) s (.refused (.notThisInstruction .move64))

/-- Row REDIRECT_VLDR_A2: SEE "VLDR", class A2, P = 1 and W = 0, 30_encoding.md R62, after the condition (40_vldm.md R74; log 24). -/
def execSeeVldrA2 (cond : BitVec 4) (_u _d : BitVec 1) (_rn _vd : BitVec 4) (_imm8 : BitVec 8) (s : State) : Result :=
  conditional .a32 (.field cond) s (.refused (.notThisInstruction .vldr))

/-- Row REDIRECT_MOV64_T1: SEE "Related encodings", class T1, PUW = 000, 30_encoding.md R62, after the condition (40_vldm.md R74; log 24). -/
def execSeeMov64T1 (_d : BitVec 1) (_rn _vd : BitVec 4) (_imm7 : BitVec 7) (s : State) : Result :=
  conditional .t32 .itInput s (.refused (.notThisInstruction .move64))

/-- Row REDIRECT_VLDR_T1: SEE "VLDR", class T1, P = 1 and W = 0, 30_encoding.md R62, after the condition (40_vldm.md R74; log 24). -/
def execSeeVldrT1 (_u _d : BitVec 1) (_rn _vd : BitVec 4) (_imm7 : BitVec 7) (s : State) : Result :=
  conditional .t32 .itInput s (.refused (.notThisInstruction .vldr))

/-- Row REDIRECT_MOV64_T2: SEE "Related encodings", class T2, PUW = 000, 30_encoding.md R62, after the condition (40_vldm.md R74; log 24). -/
def execSeeMov64T2 (_d : BitVec 1) (_rn _vd : BitVec 4) (_imm8 : BitVec 8) (s : State) : Result :=
  conditional .t32 .itInput s (.refused (.notThisInstruction .move64))

/-- Row REDIRECT_VLDR_T2: SEE "VLDR", class T2, P = 1 and W = 0, 30_encoding.md R62, after the condition (40_vldm.md R74; log 24). -/
def execSeeVldrT2 (_u _d : BitVec 1) (_rn _vd : BitVec 4) (_imm8 : BitVec 8) (s : State) : Result :=
  conditional .t32 .itInput s (.refused (.notThisInstruction .vldr))

/-- Row REDIRECT_FLDMX_A32: SEE "FLDM*X", A32, 30_encoding.md R64: matches no class diagram, so refused whatever its condition (log 24). -/
def execSeeFldmxA32 (_cond : BitVec 4) (_p _u _d _w : BitVec 1) (_rn _vd : BitVec 4) (_imm7 : BitVec 7)
    (_s : State) : Result :=
  .refused (.notThisInstruction .fldmx)

/-- Row REDIRECT_FLDMX_T32: SEE "FLDM*X", T32, 30_encoding.md R64: matches no class diagram, so refused whatever its condition (log 24). -/
def execSeeFldmxT32 (_p _u _d _w : BitVec 1) (_rn _vd : BitVec 4) (_imm7 : BitVec 7) (_s : State) : Result :=
  .refused (.notThisInstruction .fldmx)

end Sys2Proof.Machine
end

