-- ==== Sys2Proof/Machine/Undefined.lean ====
section
/-! DEFINITION. The eight UNDEFINED rows: PUW = 001 and 111 in each class (30_encoding.md R60, 60_exceptions.md R95). -/

namespace Sys2Proof.Machine

/-- Row UNDEFINED_A1_PUW001: UNDEFINED, class A1, PUW = 001, 30_encoding.md R60, 60_exceptions.md R95. -/
def execUndefA1Puw001 (cond : BitVec 4) (_d : BitVec 1) (_rn _vd : BitVec 4) (_imm7 : BitVec 7)
    (s : State) : Result :=
  conditional .a32 (.field cond) s (raise .undefinedInstruction s)

/-- Row UNDEFINED_A1_PUW111: UNDEFINED, class A1, PUW = 111, 30_encoding.md R60, 60_exceptions.md R95. -/
def execUndefA1Puw111 (cond : BitVec 4) (_d : BitVec 1) (_rn _vd : BitVec 4) (_imm7 : BitVec 7)
    (s : State) : Result :=
  conditional .a32 (.field cond) s (raise .undefinedInstruction s)

/-- Row UNDEFINED_A2_PUW001: UNDEFINED, class A2, PUW = 001, 30_encoding.md R60, 60_exceptions.md R95. -/
def execUndefA2Puw001 (cond : BitVec 4) (_d : BitVec 1) (_rn _vd : BitVec 4) (_imm8 : BitVec 8)
    (s : State) : Result :=
  conditional .a32 (.field cond) s (raise .undefinedInstruction s)

/-- Row UNDEFINED_A2_PUW111: UNDEFINED, class A2, PUW = 111, 30_encoding.md R60, 60_exceptions.md R95. -/
def execUndefA2Puw111 (cond : BitVec 4) (_d : BitVec 1) (_rn _vd : BitVec 4) (_imm8 : BitVec 8)
    (s : State) : Result :=
  conditional .a32 (.field cond) s (raise .undefinedInstruction s)

/-- Row UNDEFINED_T1_PUW001: UNDEFINED, class T1, PUW = 001, 30_encoding.md R60, 60_exceptions.md R95. -/
def execUndefT1Puw001 (_d : BitVec 1) (_rn _vd : BitVec 4) (_imm7 : BitVec 7) (s : State) : Result :=
  conditional .t32 .itInput s (raise .undefinedInstruction s)

/-- Row UNDEFINED_T1_PUW111: UNDEFINED, class T1, PUW = 111, 30_encoding.md R60, 60_exceptions.md R95. -/
def execUndefT1Puw111 (_d : BitVec 1) (_rn _vd : BitVec 4) (_imm7 : BitVec 7) (s : State) : Result :=
  conditional .t32 .itInput s (raise .undefinedInstruction s)

/-- Row UNDEFINED_T2_PUW001: UNDEFINED, class T2, PUW = 001, 30_encoding.md R60, 60_exceptions.md R95. -/
def execUndefT2Puw001 (_d : BitVec 1) (_rn _vd : BitVec 4) (_imm8 : BitVec 8) (s : State) : Result :=
  conditional .t32 .itInput s (raise .undefinedInstruction s)

/-- Row UNDEFINED_T2_PUW111: UNDEFINED, class T2, PUW = 111, 30_encoding.md R60, 60_exceptions.md R95. -/
def execUndefT2Puw111 (_d : BitVec 1) (_rn _vd : BitVec 4) (_imm8 : BitVec 8) (s : State) : Result :=
  conditional .t32 .itInput s (raise .undefinedInstruction s)

end Sys2Proof.Machine
end

