-- ==== Sys2Proof/Machine/Operands.lean ====
section
/-! DEFINITION. The decode values of the two Decode blocks (30_encoding.md R56, R57) and the addresses they give. -/

namespace Sys2Proof.Machine

/-- The decode values of one VLDM (30_encoding.md R56, R57). -/
structure Transfer where
  singleRegs : Bool
  add : Bool
  wback : Bool
  d : Nat
  n : BitVec 4
  imm32 : Word
  regs : Nat
deriving DecidableEq, Repr

/-- `imm8` of the classes A1 and T1: `imm8[7:1]` and the fixed 0 (30_encoding.md R50, R52). -/
def imm8OfImm7 (imm7 : BitVec 7) : BitVec 8 := imm7 ++ 0#1

/-- `zext_32(imm8:'00')` (30_encoding.md R56, R57). -/
def imm32Of (imm8 : BitVec 8) : Word := (imm8 ++ 0#2).setWidth 32

/-- The first `D` register: `UInt(D:Vd)` (30_encoding.md R56). -/
def firstD (d : BitVec 1) (vd : BitVec 4) : Nat := (d ++ vd).toNat

/-- The first `S` register: `UInt(Vd:D)` (30_encoding.md R57). -/
def firstS (d : BitVec 1) (vd : BitVec 4) : Nat := (vd ++ d).toNat

/-- The Decode block of A1 and T1 (30_encoding.md R56). -/
def transferD (add wback : Bool) (d : BitVec 1) (rn vd : BitVec 4) (imm7 : BitVec 7) : Transfer where
  singleRegs := false
  add := add
  wback := wback
  d := firstD d vd
  n := rn
  imm32 := imm32Of (imm8OfImm7 imm7)
  regs := (imm8OfImm7 imm7).toNat / 2

/-- The Decode block of A2 and T2 (30_encoding.md R57). -/
def transferS (add wback : Bool) (d : BitVec 1) (rn vd : BitVec 4) (imm8 : BitVec 8) : Transfer where
  singleRegs := true
  add := add
  wback := wback
  d := firstS d vd
  n := rn
  imm32 := imm32Of imm8
  regs := imm8.toNat

/-- The first address: `if add then R[n] else R[n] - imm32` (40_vldm.md R74). -/
def baseAddr (t : Transfer) (s : State) : Word :=
  if t.add then readReg s t.n else readReg s t.n - t.imm32

/-- The value written back: `if add then R[n] + imm32 else R[n] - imm32` (40_vldm.md R74). -/
def backValue (t : Transfer) (s : State) : Word :=
  if t.add then readReg s t.n + t.imm32 else readReg s t.n - t.imm32

/-- The byte range `[base, base+imm32)` as mathematical integers is not inside `[0, 2^32)`: it passes the top, or it is that
of a Decrement Before with `UInt(R[n]) < UInt(imm32)` (20_memory.md R40, 40_vldm.md R78, R80; DEDUCED, log 21). -/
def rangeCrosses (t : Transfer) (s : State) : Bool :=
  decide (2 ^ 32 < (baseAddr t s).toNat + t.imm32.toNat) ||
    (!t.add && decide ((readReg s t.n).toNat < t.imm32.toNat))

/-- `n == 15 && (wback || iset != A32)` (40_vldm.md R85). -/
def pcBaseBarred (t : Transfer) (s : State) : Bool :=
  t.n == 15#4 && (t.wback || s.iset != .a32)

/-- `regs > 16 || (d+regs) > 32` for `D` lists, `(d+regs) > 32` for `S` lists (40_vldm.md R87). -/
def listTooLong (t : Transfer) : Bool :=
  (!t.singleRegs && decide (16 < t.regs)) || decide (32 < t.d + t.regs)

end Sys2Proof.Machine
end

