-- ==== Sys2Proof/Machine/Load.lean ====
section
/-! DEFINITION. The Execute block that all eight encodings share (40_vldm.md R73, R74), with the constrained-unpredictable
cases (R86, R87) and the state a `DataAbort` leaves (R91). -/

namespace Sys2Proof.Machine

/-- The loop of an `S` list (40_vldm.md R74): `count` registers from `S[d]`, words from `a` upward. -/
def loadListS : Nat → Nat → Word → State → Except Abort State
  | 0, _, _, s => .ok s
  | count + 1, d, a, s =>
    match memRead s a with
    | .error e => .error e
    | .ok v => loadListS count (d + 1) (a + 4#32) (writeS s d v)

/-- The value of a `D` register from its two words (20_memory.md R38). -/
def combineWords (bigEndian : Bool) (word1 word2 : Word) : DWord :=
  if bigEndian then word1 ++ word2 else word2 ++ word1

/-- The loop of a `D` list (40_vldm.md R74): `count` registers from `D[d]`, pairs of words from `a` upward. -/
def loadListD : Nat → Nat → Word → State → Except Abort State
  | 0, _, _, s => .ok s
  | count + 1, d, a, s =>
    match memRead s a with
    | .error e => .error e
    | .ok word1 =>
      match memRead s (a + 4#32) with
      | .error e => .error e
      | .ok word2 => loadListD count (d + 1) (a + 8#32) (writeD s d (combineWords s.bigEndian word1 word2))

/-- The loop of the Execute block (40_vldm.md R74). -/
def loadList (t : Transfer) (s : State) : Except Abort State :=
  if t.singleRegs then loadListS t.regs t.d (baseAddr t s) s else loadListD t.regs t.d (baseAddr t s) s

/-- Every register of the list drawn (40_vldm.md R91). -/
def drawList (t : Transfer) (s : State) : State :=
  if t.singleRegs then drawListS t.regs t.d s else drawListD t.regs t.d s

/-- The state a `DataAbort` leaves: the registers of the list drawn after `DataAbort(Other)`, nothing changed after
`DataAbort(Alignment)` (40_vldm.md R91, 60_exceptions.md R98, R104). -/
def abortState (e : Abort) (t : Transfer) (s : State) : State :=
  match e.kind with
  | .alignment => s
  | .other => drawList t s

/-- `if wback: R[n] <- ...`, after all transfers (40_vldm.md R73); `before` is the state the instruction began in. -/
def writeBack (t : Transfer) (before s : State) : State :=
  if t.wback then writeReg s t.n (backValue t before) else s

/-- The Execute block from the first address on (40_vldm.md R74). -/
def runTransfer (k : InstrSet) (t : Transfer) (s : State) : Result :=
  if rangeCrosses t s then .refused .addressWrap
  else
    match loadList t s with
    | .error e => raise (.dataAbort e) (abortState e t s)
    | .ok s' => .next (retire k (writeBack t s s'))

/-- `CheckVFPEnabled(TRUE)`, then the transfer (40_vldm.md R74, 60_exceptions.md R96, R97). -/
def checkedTransfer (k : InstrSet) (t : Transfer) (s : State) : Result :=
  match fpAccess s with
  | .undefined => raise .undefinedInstruction s
  | .hypTrap => raise .hypTrap s
  | .enabled => runTransfer k t s

/-- `regs == 0`: the behaviour `CU_REGS0` selects, the refusal while it is left open (40_vldm.md R86). -/
def emptyList (k : InstrSet) (t : Transfer) (s : State) : Result :=
  match s.cuRegs0 with
  | some .undef => raise .undefinedInstruction s
  | some .nop => .next (retire k s)
  | some .loadNone => checkedTransfer k t s
  | none => .refused .unpredictableEmptyList

/-- Every `D` register drawn (40_vldm.md R87). -/
def drawAllD (s : State) : State := drawListD 32 0 s

/-- The `DataAbort` that `CU_RANGE = Unknown` also admits (40_vldm.md R87; log 10): while access is enabled, that of a read at
a free address, if it is one that aborts (60_exceptions.md R94, R100). -/
def rangeAbort (s : State) : Option Abort :=
  match fpAccess s with
  | .enabled => (Config.rangeRead s.draws).bind (readAbort s)
  | .undefined => none
  | .hypTrap => none

/-- `CU_RANGE = Unknown`: every `D` register is drawn, and the base if `wback`; a `DataAbort` is also admitted
(40_vldm.md R87), which leaves the base as it was (R91, 60_exceptions.md R104; log 10). -/
def unknownRange (k : InstrSet) (t : Transfer) (s : State) : Result :=
  match rangeAbort s with
  | some e =>
    match e.kind with
    | .alignment => raise (.dataAbort e) s
    | .other => raise (.dataAbort e) (drawAllD s)
  | none => .next (retire k (if t.wback then drawReg (drawAllD s) t.n else drawAllD s))

/-- The register range check fails: the behaviour `CU_RANGE` selects, the refusal while it is left open (40_vldm.md R87). -/
def longList (k : InstrSet) (t : Transfer) (s : State) : Result :=
  match s.cuRange with
  | some .undef => raise .undefinedInstruction s
  | some .nop => .next (retire k s)
  | some .unknown => unknownRange k t s
  | none => .refused .unpredictableRange

/-- One VLDM whose condition passed, from the decode values on: the checks in the order of 60_exceptions.md R100. -/
def vldm (k : InstrSet) (t : Transfer) (s : State) : Result :=
  if pcBaseBarred t s then .refused .unpredictablePcBase
  else if t.regs = 0 then emptyList k t s
  else if listTooLong t then longList k t s
  else checkedTransfer k t s

end Sys2Proof.Machine
end

