-- ==== Sys2Proof/Machine/Vldm.lean ====
section
/-! DEFINITION. The eight encodings of VLDM and VLDMDB (40_vldm.md R77 to R84), each the shared operation on its own decode values. -/

namespace Sys2Proof.Machine

/-- Row VLDMDB_A1: Decrement Before, A1, 40_vldm.md R78. -/
def execVldmdbA1 (cond : BitVec 4) (d : BitVec 1) (rn vd : BitVec 4) (imm7 : BitVec 7) (s : State) : Result :=
  conditional .a32 (.field cond) s (vldm .a32 (transferD false true d rn vd imm7) s)

/-- Row VLDM_A1: Increment After, A1, 40_vldm.md R77. -/
def execVldmA1 (cond : BitVec 4) (d w : BitVec 1) (rn vd : BitVec 4) (imm7 : BitVec 7) (s : State) : Result :=
  conditional .a32 (.field cond) s (vldm .a32 (transferD true (w == 1#1) d rn vd imm7) s)

/-- Row VLDMDB_A2: Decrement Before, A2, 40_vldm.md R80. -/
def execVldmdbA2 (cond : BitVec 4) (d : BitVec 1) (rn vd : BitVec 4) (imm8 : BitVec 8) (s : State) : Result :=
  conditional .a32 (.field cond) s (vldm .a32 (transferS false true d rn vd imm8) s)

/-- Row VLDM_A2: Increment After, A2, 40_vldm.md R79. -/
def execVldmA2 (cond : BitVec 4) (d w : BitVec 1) (rn vd : BitVec 4) (imm8 : BitVec 8) (s : State) : Result :=
  conditional .a32 (.field cond) s (vldm .a32 (transferS true (w == 1#1) d rn vd imm8) s)

/-- Row VLDMDB_T1: Decrement Before, T1, 40_vldm.md R82. -/
def execVldmdbT1 (d : BitVec 1) (rn vd : BitVec 4) (imm7 : BitVec 7) (s : State) : Result :=
  conditional .t32 .itInput s (vldm .t32 (transferD false true d rn vd imm7) s)

/-- Row VLDM_T1: Increment After, T1, 40_vldm.md R81. -/
def execVldmT1 (d w : BitVec 1) (rn vd : BitVec 4) (imm7 : BitVec 7) (s : State) : Result :=
  conditional .t32 .itInput s (vldm .t32 (transferD true (w == 1#1) d rn vd imm7) s)

/-- Row VLDMDB_T2: Decrement Before, T2, 40_vldm.md R84. -/
def execVldmdbT2 (d : BitVec 1) (rn vd : BitVec 4) (imm8 : BitVec 8) (s : State) : Result :=
  conditional .t32 .itInput s (vldm .t32 (transferS false true d rn vd imm8) s)

/-- Row VLDM_T2: Increment After, T2, 40_vldm.md R83. -/
def execVldmT2 (d w : BitVec 1) (rn vd : BitVec 4) (imm8 : BitVec 8) (s : State) : Result :=
  conditional .t32 .itInput s (vldm .t32 (transferS true (w == 1#1) d rn vd imm8) s)

end Sys2Proof.Machine
end

