-- ==== Sys2Proof/Machine/Dispatch.lean ====
section
/-! DEFINITION. The dispatch: one arm per constructor of Instr, each one call of that instruction's meaning. -/

namespace Sys2Proof.Machine

def exec (i : Instr) (s : State) : Host.Outcome State Fault Refusal :=
  match i with
  | .vldmdbA1 cond d rn vd imm7 => Sys2Proof.Machine.execVldmdbA1 cond d rn vd imm7 s
  | .vldmA1 cond d w rn vd imm7 => Sys2Proof.Machine.execVldmA1 cond d w rn vd imm7 s
  | .vldmdbA2 cond d rn vd imm8 => Sys2Proof.Machine.execVldmdbA2 cond d rn vd imm8 s
  | .vldmA2 cond d w rn vd imm8 => Sys2Proof.Machine.execVldmA2 cond d w rn vd imm8 s
  | .vldmdbT1 d rn vd imm7 => Sys2Proof.Machine.execVldmdbT1 d rn vd imm7 s
  | .vldmT1 d w rn vd imm7 => Sys2Proof.Machine.execVldmT1 d w rn vd imm7 s
  | .vldmdbT2 d rn vd imm8 => Sys2Proof.Machine.execVldmdbT2 d rn vd imm8 s
  | .vldmT2 d w rn vd imm8 => Sys2Proof.Machine.execVldmT2 d w rn vd imm8 s
  | .undefA1Puw001 cond d rn vd imm7 => Sys2Proof.Machine.execUndefA1Puw001 cond d rn vd imm7 s
  | .undefA1Puw111 cond d rn vd imm7 => Sys2Proof.Machine.execUndefA1Puw111 cond d rn vd imm7 s
  | .undefA2Puw001 cond d rn vd imm8 => Sys2Proof.Machine.execUndefA2Puw001 cond d rn vd imm8 s
  | .undefA2Puw111 cond d rn vd imm8 => Sys2Proof.Machine.execUndefA2Puw111 cond d rn vd imm8 s
  | .undefT1Puw001 d rn vd imm7 => Sys2Proof.Machine.execUndefT1Puw001 d rn vd imm7 s
  | .undefT1Puw111 d rn vd imm7 => Sys2Proof.Machine.execUndefT1Puw111 d rn vd imm7 s
  | .undefT2Puw001 d rn vd imm8 => Sys2Proof.Machine.execUndefT2Puw001 d rn vd imm8 s
  | .undefT2Puw111 d rn vd imm8 => Sys2Proof.Machine.execUndefT2Puw111 d rn vd imm8 s
  | .seeMov64A1 cond d rn vd imm7 => Sys2Proof.Machine.execSeeMov64A1 cond d rn vd imm7 s
  | .seeVldrA1 cond u d rn vd imm7 => Sys2Proof.Machine.execSeeVldrA1 cond u d rn vd imm7 s
  | .seeMov64A2 cond d rn vd imm8 => Sys2Proof.Machine.execSeeMov64A2 cond d rn vd imm8 s
  | .seeVldrA2 cond u d rn vd imm8 => Sys2Proof.Machine.execSeeVldrA2 cond u d rn vd imm8 s
  | .seeMov64T1 d rn vd imm7 => Sys2Proof.Machine.execSeeMov64T1 d rn vd imm7 s
  | .seeVldrT1 u d rn vd imm7 => Sys2Proof.Machine.execSeeVldrT1 u d rn vd imm7 s
  | .seeMov64T2 d rn vd imm8 => Sys2Proof.Machine.execSeeMov64T2 d rn vd imm8 s
  | .seeVldrT2 u d rn vd imm8 => Sys2Proof.Machine.execSeeVldrT2 u d rn vd imm8 s
  | .seeFldmxA32 cond p u d w rn vd imm7 => Sys2Proof.Machine.execSeeFldmxA32 cond p u d w rn vd imm7 s
  | .seeFldmxT32 p u d w rn vd imm7 => Sys2Proof.Machine.execSeeFldmxT32 p u d w rn vd imm7 s

end Sys2Proof.Machine
end

