-- ==== Sys2Proof/Machine/Step.lean ====
section
/-! DEFINITION. One step: the alignment of `pc`, the fetch, the decoder, the instruction (10_state.md R22, 20_memory.md
R48, 40_vldm.md R74). -/

namespace Sys2Proof.Machine

/-- One step of the PE. -/
def step (s : State) : Host.Outcome State Fault Refusal :=
  if pcAligned s then
    match decode s.iset (fetchBytes s) with
    | .ok i => exec i s
    | .error why => .refused (.notInSpec why)
  else .refused .pcMisaligned

/-- `s` with one instruction, numbered as spec/opcode_table.json numbers it, placed where `step` fetches (log 28). -/
def State.withFetchWord (s : State) (nbits w : Nat) : State :=
  placeWord s (tableIset (tableWord nbits w)) (tableWord nbits w)

end Sys2Proof.Machine
end

