-- ==== Sys2Proof/Safety.lean ====
section
/-! DEFINITION. What counts as a safe run and the words the statements use: the launch premises of
70_reset_and_hazards.md R120, what a VLDM's list and base hold after it, the invariant, and two outcomes that differ in
one field only. -/

namespace Sys2Proof.Machine

/-! ## The launch premises (70_reset_and_hazards.md R120) -/

/-- `count` steps of a run: the state after the last, or the fault or refusal that ended it earlier (R119). -/
def runSteps : Nat → State → Result
  | 0, s => .next s
  | count + 1, s =>
    match step s with
    | .next t => runSteps count t
    | .fault f => .fault f
    | .refused why => .refused why

/-- The run from `s` to the address `goal` that a claim names: how it ends within `count` steps, at the state in which `pc`
first is `goal` or earlier at a fault or a refusal; none where it has not ended (R119). -/
def runTo (goal : Word) : Nat → State → Option Result
  | 0, s => if s.pc = goal then some (.next s) else none
  | count + 1, s =>
    if s.pc = goal then some (.next s)
    else
      match step s with
      | .next t => runTo goal count t
      | .fault f => some (.fault f)
      | .refused why => some (.refused why)

/-- The run from `s` to `goal` ends in this way: of its end a claim speaks (R119). -/
def RunEnds (s : State) (goal : Word) (r : Result) : Prop := ∃ count, runTo goal count s = some r

/-- `NoFault`: a step or a run answers a next state. -/
def NoFault (r : Result) : Prop := ∃ t, r = .next t

/-- `FPAccess == Enabled`. -/
def FpEnabled (s : State) : Prop := fpAccess s = .enabled

/-- `FPEnabledThroughout`: `FPAccess == Enabled` at every one of the first `count` steps of the run from `s`. -/
def FPEnabledThroughout (count : Nat) (s : State) : Prop :=
  ∀ j < count, ∀ t, runSteps j s = .next t → FpEnabled t

/-- `BaseWritten(n)`: the base register holds a value. Every register of this model does, from reset on (log 1), so that the
premise is met in every state. Log 35. -/
def BaseWritten (s : State) (n : BitVec 4) : Prop := ∃ v, readReg s n = v

/-- `PcAligned`. -/
def PcAligned (s : State) : Prop := pcAligned s = true

/-- `ProgramAt(base, words)`: the words of the current instruction set lie at `base`, `base + 4`, and so on. -/
def ProgramAt (s : State) (base : Word) (words : List (BitVec 32)) : Prop :=
  ∀ j, (h : j < words.length) → ∀ k, (hk : k < (bytesOfWord s.iset words[j]).length) →
    readByte s (base + BitVec.ofNat 32 (4 * j + k)) = (bytesOfWord s.iset words[j])[k]

/-- `MemAdmitted(range)`: each of `count` words from `base` upward is admitted. -/
def MemAdmitted (s : State) (base : Word) (count : Nat) : Prop :=
  ∀ j < count, memAdmit s (base + BitVec.ofNat 32 (4 * j)) = true

/-- A VLDM may read `count` words from `base` upward: aligned, inside the address space, admitted (R114). -/
def ReadsAllowed (s : State) (base : Word) (count : Nat) : Prop :=
  wordAligned base = true ∧ base.toNat + 4 * count ≤ 2 ^ 32 ∧ MemAdmitted s base count

/-! ## What a VLDM leaves -/

/-- The word at `base + off`. -/
def wordFrom (s : State) (base : Word) (off : Nat) : Word := wordAt s (base + BitVec.ofNat 32 off)

/-- `D[d .. d+regs-1]` hold the words from `base` upward in the order of the endianness, the other `D` registers what
they held (40_vldm.md R77, 20_memory.md R38, R39). -/
def LoadedD (s t : State) (d regs : Nat) (base : Word) : Prop :=
  (∀ r < regs, readD t (d + r) =
    if s.bigEndian then wordFrom s base (8 * r) ++ wordFrom s base (8 * r + 4)
    else wordFrom s base (8 * r + 4) ++ wordFrom s base (8 * r)) ∧
  ∀ i < 32, (i < d ∨ d + regs ≤ i) → readD t i = readD s i

/-- `S[d .. d+regs-1]` hold the words from `base` upward, the other `S` registers and `D[16..31]` what they held
(40_vldm.md R79, 10_state.md R27). -/
def LoadedS (s t : State) (d regs : Nat) (base : Word) : Prop :=
  (∀ r < regs, readS t (d + r) = wordFrom s base (4 * r)) ∧
  (∀ j < 32, (j < d ∨ d + regs ≤ j) → readS t j = readS s j) ∧
  ∀ i < 32, 16 ≤ i → readD t i = readD s i

/-- `R[n]` holds `v` if `wback`; every other of `R[0..14]` holds what it held (10_state.md R17). -/
def WrittenBack (s t : State) (n : BitVec 4) (wback : Prop) (v : Word) : Prop :=
  (wback → readReg t n = v) ∧ ∀ i, i ≠ 15#4 → ¬ (wback ∧ i = n) → readReg t i = readReg s i

/-- Everything but the general-purpose registers, the SIMD&FP registers, `pc` and the `it_cond` inputs is as it was: the
flags, `iset`, `E`, `DIT`, the enable inputs, the interrupt masks, the parameters, all of memory, the draw counter (40_vldm.md R92). -/
def OthersKept (s t : State) : Prop :=
  t = { s with regs := t.regs, dregs := t.dregs, pc := t.pc, itConds := t.itConds }

end Sys2Proof.Machine

namespace Sys2Proof

open Machine

/-! ## The instructions as syntax -/

/-- Where an instruction takes its condition from (10_state.md R25). -/
def Instr.condSource : Instr → CondSource
  | .vldmdbA1 cond _ _ _ _ => .field cond
  | .vldmA1 cond _ _ _ _ _ => .field cond
  | .vldmdbA2 cond _ _ _ _ => .field cond
  | .vldmA2 cond _ _ _ _ _ => .field cond
  | .vldmdbT1 _ _ _ _ => .itInput
  | .vldmT1 _ _ _ _ _ => .itInput
  | .vldmdbT2 _ _ _ _ => .itInput
  | .vldmT2 _ _ _ _ _ => .itInput
  | .undefA1Puw001 cond _ _ _ _ => .field cond
  | .undefA1Puw111 cond _ _ _ _ => .field cond
  | .undefA2Puw001 cond _ _ _ _ => .field cond
  | .undefA2Puw111 cond _ _ _ _ => .field cond
  | .undefT1Puw001 _ _ _ _ => .itInput
  | .undefT1Puw111 _ _ _ _ => .itInput
  | .undefT2Puw001 _ _ _ _ => .itInput
  | .undefT2Puw111 _ _ _ _ => .itInput
  | .seeMov64A1 cond _ _ _ _ => .field cond
  | .seeVldrA1 cond _ _ _ _ _ => .field cond
  | .seeMov64A2 cond _ _ _ _ => .field cond
  | .seeVldrA2 cond _ _ _ _ _ => .field cond
  | .seeMov64T1 _ _ _ _ => .itInput
  | .seeVldrT1 _ _ _ _ _ => .itInput
  | .seeMov64T2 _ _ _ _ => .itInput
  | .seeVldrT2 _ _ _ _ _ => .itInput
  | .seeFldmxA32 cond _ _ _ _ _ _ _ => .field cond
  | .seeFldmxT32 _ _ _ _ _ _ _ => .itInput

/-- The decode values of a VLDM or VLDMDB; none for the other rows (30_encoding.md R56, R57). -/
def Instr.transfer : Instr → Option Transfer
  | .vldmdbA1 _ d rn vd imm7 => some (transferD false true d rn vd imm7)
  | .vldmA1 _ d w rn vd imm7 => some (transferD true (w == 1#1) d rn vd imm7)
  | .vldmdbA2 _ d rn vd imm8 => some (transferS false true d rn vd imm8)
  | .vldmA2 _ d w rn vd imm8 => some (transferS true (w == 1#1) d rn vd imm8)
  | .vldmdbT1 d rn vd imm7 => some (transferD false true d rn vd imm7)
  | .vldmT1 d w rn vd imm7 => some (transferD true (w == 1#1) d rn vd imm7)
  | .vldmdbT2 d rn vd imm8 => some (transferS false true d rn vd imm8)
  | .vldmT2 d w rn vd imm8 => some (transferS true (w == 1#1) d rn vd imm8)
  | .undefA1Puw001 _ _ _ _ _ => none
  | .undefA1Puw111 _ _ _ _ _ => none
  | .undefA2Puw001 _ _ _ _ _ => none
  | .undefA2Puw111 _ _ _ _ _ => none
  | .undefT1Puw001 _ _ _ _ => none
  | .undefT1Puw111 _ _ _ _ => none
  | .undefT2Puw001 _ _ _ _ => none
  | .undefT2Puw111 _ _ _ _ => none
  | .seeMov64A1 _ _ _ _ _ => none
  | .seeVldrA1 _ _ _ _ _ _ => none
  | .seeMov64A2 _ _ _ _ _ => none
  | .seeVldrA2 _ _ _ _ _ _ => none
  | .seeMov64T1 _ _ _ _ => none
  | .seeVldrT1 _ _ _ _ _ => none
  | .seeMov64T2 _ _ _ _ => none
  | .seeVldrT2 _ _ _ _ _ => none
  | .seeFldmxA32 _ _ _ _ _ _ _ _ => none
  | .seeFldmxT32 _ _ _ _ _ _ _ => none

/-- The eight UNDEFINED rows (30_encoding.md R60). -/
def Instr.isUndefined : Instr → Bool
  | .vldmdbA1 _ _ _ _ _ => false
  | .vldmA1 _ _ _ _ _ _ => false
  | .vldmdbA2 _ _ _ _ _ => false
  | .vldmA2 _ _ _ _ _ _ => false
  | .vldmdbT1 _ _ _ _ => false
  | .vldmT1 _ _ _ _ _ => false
  | .vldmdbT2 _ _ _ _ => false
  | .vldmT2 _ _ _ _ _ => false
  | .undefA1Puw001 _ _ _ _ _ => true
  | .undefA1Puw111 _ _ _ _ _ => true
  | .undefA2Puw001 _ _ _ _ _ => true
  | .undefA2Puw111 _ _ _ _ _ => true
  | .undefT1Puw001 _ _ _ _ => true
  | .undefT1Puw111 _ _ _ _ => true
  | .undefT2Puw001 _ _ _ _ => true
  | .undefT2Puw111 _ _ _ _ => true
  | .seeMov64A1 _ _ _ _ _ => false
  | .seeVldrA1 _ _ _ _ _ _ => false
  | .seeMov64A2 _ _ _ _ _ => false
  | .seeVldrA2 _ _ _ _ _ _ => false
  | .seeMov64T1 _ _ _ _ => false
  | .seeVldrT1 _ _ _ _ _ => false
  | .seeMov64T2 _ _ _ _ => false
  | .seeVldrT2 _ _ _ _ _ => false
  | .seeFldmxA32 _ _ _ _ _ _ _ _ => false
  | .seeFldmxT32 _ _ _ _ _ _ _ => false

/-- The instruction a redirect row belongs to (30_encoding.md R62, R64); none for the other rows. -/
def Instr.redirect : Instr → Option OtherInstr
  | .vldmdbA1 _ _ _ _ _ => none
  | .vldmA1 _ _ _ _ _ _ => none
  | .vldmdbA2 _ _ _ _ _ => none
  | .vldmA2 _ _ _ _ _ _ => none
  | .vldmdbT1 _ _ _ _ => none
  | .vldmT1 _ _ _ _ _ => none
  | .vldmdbT2 _ _ _ _ => none
  | .vldmT2 _ _ _ _ _ => none
  | .undefA1Puw001 _ _ _ _ _ => none
  | .undefA1Puw111 _ _ _ _ _ => none
  | .undefA2Puw001 _ _ _ _ _ => none
  | .undefA2Puw111 _ _ _ _ _ => none
  | .undefT1Puw001 _ _ _ _ => none
  | .undefT1Puw111 _ _ _ _ => none
  | .undefT2Puw001 _ _ _ _ => none
  | .undefT2Puw111 _ _ _ _ => none
  | .seeMov64A1 _ _ _ _ _ => some .move64
  | .seeVldrA1 _ _ _ _ _ _ => some .vldr
  | .seeMov64A2 _ _ _ _ _ => some .move64
  | .seeVldrA2 _ _ _ _ _ _ => some .vldr
  | .seeMov64T1 _ _ _ _ => some .move64
  | .seeVldrT1 _ _ _ _ _ => some .vldr
  | .seeMov64T2 _ _ _ _ => some .move64
  | .seeVldrT2 _ _ _ _ _ => some .vldr
  | .seeFldmxA32 _ _ _ _ _ _ _ _ => some .fldmx
  | .seeFldmxT32 _ _ _ _ _ _ _ => some .fldmx

end Sys2Proof

namespace Sys2Proof.Machine

/-- The condition passed and the checks of 40_vldm.md R85 to R87 do not fire: the base is not barred, the list is not empty
and not too long. -/
def ChecksPass (i : Instr) (t : Transfer) (s : State) : Prop :=
  condOk i.condSource s = some true ∧ ¬ (t.n = 15#4 ∧ (t.wback = true ∨ s.iset ≠ .a32)) ∧
  1 ≤ t.regs ∧ (t.singleRegs = false → t.regs ≤ 16) ∧ t.d + t.regs ≤ 32

/-- A word fits one of the diagrams of the instruction set (30_encoding.md R50 to R53): the condition field or the fixed
bits above bit 27, bits 27:25, `L`, bits 11:10, and either `size = 11` with bit 0 clear or `size = 10`. -/
def FitsDiagram (k : InstrSet) (w : BitVec 32) : Prop :=
  (k = .a32 → w.extractLsb' 28 4 ≠ 0b1111#4) ∧ (k = .t32 → w.extractLsb' 28 4 = 0b1110#4) ∧
  w.extractLsb' 25 3 = 0b110#3 ∧ w.extractLsb' 20 1 = 1#1 ∧ w.extractLsb' 10 2 = 0b10#2 ∧
  ((w.extractLsb' 8 2 = 0b11#2 ∧ w.extractLsb' 0 1 = 0#1) ∨ w.extractLsb' 8 2 = 0b10#2)

/-! ## Invariant -/

/-- Memory is in canonical form, `pc` is aligned for `iset`, and no `it_cond` input is the value `1111` that the table of
10_state.md R25 has no row for. -/
def Inv (s : State) : Prop :=
  s.mem.wf = true ∧ pcAligned s = true ∧ s.itConds.all (fun c => c != 0b1111#4) = true

/-! ## Outcomes -/

/-- The state a fault leaves. -/
def Fault.left : Fault → State
  | .undefinedInstruction _ left => left
  | .hypTrap _ left => left
  | .dataAbort _ _ left => left

/-- A fault after which the SIMD&FP registers may be drawn (60_exceptions.md R104). -/
def Fault.isOtherAbort : Fault → Bool
  | .undefinedInstruction _ _ => false
  | .hypTrap _ _ => false
  | .dataAbort kind _ _ => kind == .other

/-- The state of an outcome that is a next state. -/
def nextState (r : Result) : Option State :=
  match r with
  | .next t => some t
  | .fault _ => none
  | .refused _ => none

/-- The outcome with its state changed: the next state, or the state a fault leaves. -/
def mapState (f : State → State) (r : Result) : Result :=
  match r with
  | .next t => .next (f t)
  | .fault (.undefinedInstruction pc left) => .fault (.undefinedInstruction pc (f left))
  | .fault (.hypTrap pc left) => .fault (.hypTrap pc (f left))
  | .fault (.dataAbort kind addr left) => .fault (.dataAbort kind addr (f left))
  | .refused why => .refused why

/-- The state with another `DIT`. -/
def withDit (b : Bool) (s : State) : State := { s with dit := b }

/-- The state with another memory. -/
def withMem (m : Memory) (s : State) : State := { s with mem := m }

end Sys2Proof.Machine
end

