-- ==== Sys2Proof/Certificates/Slice0/Obligations.lean ====
section
/-! DEFINITION. The statements for the provers, from the numbered rules of spec/. -/

open Sys2Proof Sys2Proof.Machine

/-! ## Encoding -/

/-- Every well-formed instruction's bytes decode to it: no operand bit is dropped (30_encoding.md sections 1 to 3,
20_memory.md R48). -/
def Obligations.EncodedInstructionDecodesToItself : Prop :=
  ∀ i : Instr, i.wf = true → decode i.iset (encodeBytes i) = .ok i

/-- Bytes that decode to an instruction are that instruction's bytes, and it is well-formed and of the instruction set
that was read (30_encoding.md sections 1 to 3). -/
def Obligations.DecodedBytesEncodeBack : Prop :=
  ∀ (k : InstrSet) (b0 b1 b2 b3 : Byte) (i : Instr), decode k [b0, b1, b2, b3] = .ok i →
    i.iset = k ∧ i.wf = true ∧ encodeBytes i = [b0, b1, b2, b3]

/-- A few of the words of 95_test_vectors.md section 2.1, one of each encoding. -/
def Obligations.VectorWordsDecode : Prop :=
  decodeWord .a32 0xECB12B08#32 = .ok (.vldmA1 14#4 0#1 1#1 1#4 2#4 4#7) ∧
  decodeWord .a32 0xED720B04#32 = .ok (.vldmdbA1 14#4 1#1 2#4 0#4 2#7) ∧
  decodeWord .a32 0xECD30A03#32 = .ok (.vldmA2 14#4 1#1 0#1 3#4 0#4 3#8) ∧
  decodeWord .a32 0xED7DFA01#32 = .ok (.vldmdbA2 14#4 1#1 13#4 15#4 1#8) ∧
  decodeWord .t32 0xECB00B20#32 = .ok (.vldmT1 0#1 1#1 0#4 0#4 16#7) ∧
  decodeWord .t32 0xED3D8B04#32 = .ok (.vldmdbT1 0#1 13#4 8#4 2#7) ∧
  decodeWord .t32 0xEC940A20#32 = .ok (.vldmT2 0#1 0#1 4#4 0#4 32#8) ∧
  decodeWord .t32 0xED35FA02#32 = .ok (.vldmdbT2 0#1 5#4 15#4 2#8)

/-- 30_encoding.md R59: the masks and matches of the eight named encodings. -/
def Obligations.NamedEncodingsMatchTheirMasks : Prop :=
  ∀ w : BitVec 32,
    ((∃ c d rn vd m, decodeWord .a32 w = .ok (.vldmdbA1 c d rn vd m)) ↔
      w &&& 0x0FB00F01#32 = 0x0D300B00#32 ∧ w.extractLsb' 28 4 ≠ 15#4) ∧
    ((∃ c d x rn vd m, decodeWord .a32 w = .ok (.vldmA1 c d x rn vd m)) ↔
      w &&& 0x0F900F01#32 = 0x0C900B00#32 ∧ w.extractLsb' 28 4 ≠ 15#4) ∧
    ((∃ c d rn vd m, decodeWord .a32 w = .ok (.vldmdbA2 c d rn vd m)) ↔
      w &&& 0x0FB00F00#32 = 0x0D300A00#32 ∧ w.extractLsb' 28 4 ≠ 15#4) ∧
    ((∃ c d x rn vd m, decodeWord .a32 w = .ok (.vldmA2 c d x rn vd m)) ↔
      w &&& 0x0F900F00#32 = 0x0C900A00#32 ∧ w.extractLsb' 28 4 ≠ 15#4) ∧
    ((∃ d rn vd m, decodeWord .t32 w = .ok (.vldmdbT1 d rn vd m)) ↔ w &&& 0xFFB00F01#32 = 0xED300B00#32) ∧
    ((∃ d x rn vd m, decodeWord .t32 w = .ok (.vldmT1 d x rn vd m)) ↔ w &&& 0xFF900F01#32 = 0xEC900B00#32) ∧
    ((∃ d rn vd m, decodeWord .t32 w = .ok (.vldmdbT2 d rn vd m)) ↔ w &&& 0xFFB00F00#32 = 0xED300A00#32) ∧
    ((∃ d x rn vd m, decodeWord .t32 w = .ok (.vldmT2 d x rn vd m)) ↔ w &&& 0xFF900F00#32 = 0xEC900A00#32)

/-- 30_encoding.md R60: the masks and matches of the UNDEFINED rows. -/
def Obligations.UndefinedEncodingsMatchTheirMasks : Prop :=
  ∀ w : BitVec 32,
    ((∃ c d rn vd m, decodeWord .a32 w = .ok (.undefA1Puw001 c d rn vd m)) ↔
      w &&& 0x0FB00F01#32 = 0x0C300B00#32 ∧ w.extractLsb' 28 4 ≠ 15#4) ∧
    ((∃ c d rn vd m, decodeWord .a32 w = .ok (.undefA1Puw111 c d rn vd m)) ↔
      w &&& 0x0FB00F01#32 = 0x0DB00B00#32 ∧ w.extractLsb' 28 4 ≠ 15#4) ∧
    ((∃ c d rn vd m, decodeWord .a32 w = .ok (.undefA2Puw001 c d rn vd m)) ↔
      w &&& 0x0FB00F00#32 = 0x0C300A00#32 ∧ w.extractLsb' 28 4 ≠ 15#4) ∧
    ((∃ c d rn vd m, decodeWord .a32 w = .ok (.undefA2Puw111 c d rn vd m)) ↔
      w &&& 0x0FB00F00#32 = 0x0DB00A00#32 ∧ w.extractLsb' 28 4 ≠ 15#4) ∧
    ((∃ d rn vd m, decodeWord .t32 w = .ok (.undefT1Puw001 d rn vd m)) ↔ w &&& 0xFFB00F01#32 = 0xEC300B00#32) ∧
    ((∃ d rn vd m, decodeWord .t32 w = .ok (.undefT1Puw111 d rn vd m)) ↔ w &&& 0xFFB00F01#32 = 0xEDB00B00#32) ∧
    ((∃ d rn vd m, decodeWord .t32 w = .ok (.undefT2Puw001 d rn vd m)) ↔ w &&& 0xFFB00F00#32 = 0xEC300A00#32) ∧
    ((∃ d rn vd m, decodeWord .t32 w = .ok (.undefT2Puw111 d rn vd m)) ↔ w &&& 0xFFB00F00#32 = 0xEDB00A00#32)

/-- The redirect rows of spec/opcode_table.json (30_encoding.md R62, R64), by their masks and matches. -/
def Obligations.RedirectWordsMatchTheirMasks : Prop :=
  ∀ w : BitVec 32,
    ((∃ i, decodeWord .a32 w = .ok i ∧ i.redirect = some .move64) ↔
      (w &&& 0x0FB00F01#32 = 0x0C100B00#32 ∨ w &&& 0x0FB00F00#32 = 0x0C100A00#32) ∧ w.extractLsb' 28 4 ≠ 15#4) ∧
    ((∃ i, decodeWord .a32 w = .ok i ∧ i.redirect = some .vldr) ↔
      (w &&& 0x0F300F01#32 = 0x0D100B00#32 ∨ w &&& 0x0F300F00#32 = 0x0D100A00#32) ∧ w.extractLsb' 28 4 ≠ 15#4) ∧
    ((∃ i, decodeWord .a32 w = .ok i ∧ i.redirect = some .fldmx) ↔
      w &&& 0x0E100F01#32 = 0x0C100B01#32 ∧ w.extractLsb' 28 4 ≠ 15#4) ∧
    ((∃ i, decodeWord .t32 w = .ok i ∧ i.redirect = some .move64) ↔
      w &&& 0xFFB00F01#32 = 0xEC100B00#32 ∨ w &&& 0xFFB00F00#32 = 0xEC100A00#32) ∧
    ((∃ i, decodeWord .t32 w = .ok i ∧ i.redirect = some .vldr) ↔
      w &&& 0xFF300F01#32 = 0xED100B00#32 ∨ w &&& 0xFF300F00#32 = 0xED100A00#32) ∧
    ((∃ i, decodeWord .t32 w = .ok i ∧ i.redirect = some .fldmx) ↔ w &&& 0xFE100F01#32 = 0xEC100B01#32)

/-- 30_encoding.md R63, R65: the decoder rejects every word that matches none of the diagrams. -/
def Obligations.OtherWordsAreNotInSpec : Prop :=
  ∀ w : BitVec 32,
    (w.extractLsb' 28 4 = 15#4 → decodeWord .a32 w = .error .cond1111) ∧
    (w.extractLsb' 28 4 ≠ 15#4 →
      (decodeWord .a32 w = .error .noDiagram ↔
        ¬ (w &&& 0x0E100F00#32 = 0x0C100B00#32 ∨ w &&& 0x0E100F00#32 = 0x0C100A00#32))) ∧
    (decodeWord .t32 w = .error .noDiagram ↔
      ¬ (w &&& 0xFE100F00#32 = 0xEC100B00#32 ∨ w &&& 0xFE100F00#32 = 0xEC100A00#32))

/-- 30_encoding.md R66, R65: a halfword that does not begin a 32-bit instruction is rejected, whatever follows it. The
length rule is general knowledge in the spec (log 19). -/
def Obligations.ShortT32HalfwordsAreRejected : Prop :=
  ∀ (b0 b1 : Byte) (rest : List Byte),
    b1.extractLsb' 3 5 ≠ 0b11101#5 → b1.extractLsb' 3 5 ≠ 0b11110#5 → b1.extractLsb' 3 5 ≠ 0b11111#5 →
    decode .t32 (b0 :: b1 :: rest) = .error .shortT32

/-- 30_encoding.md R58: within each class the bits `P`, `U`, `W` select the outcome, the addressing mode and writeback. -/
def Obligations.PuwSelectsTheOutcome : Prop :=
  ∀ (k : InstrSet) (w : BitVec 32), FitsDiagram k w → ∃ i, decodeWord k w = .ok i ∧
    let puw := w.extractLsb' 24 1 ++ w.extractLsb' 23 1 ++ w.extractLsb' 21 1
    (puw = 0b000#3 → i.redirect = some .move64) ∧
    (puw = 0b001#3 → i.isUndefined = true) ∧
    (puw = 0b010#3 → ∃ t, i.transfer = some t ∧ t.add = true ∧ t.wback = false) ∧
    (puw = 0b011#3 → ∃ t, i.transfer = some t ∧ t.add = true ∧ t.wback = true) ∧
    (puw = 0b100#3 → i.redirect = some .vldr) ∧
    (puw = 0b101#3 → ∃ t, i.transfer = some t ∧ t.add = false ∧ t.wback = true) ∧
    (puw = 0b110#3 → i.redirect = some .vldr) ∧
    (puw = 0b111#3 → i.isUndefined = true)

/-- 30_encoding.md R56, R57: the decode values of the two Decode blocks, from the bits of the word. -/
def Obligations.DecodeValuesOfBothBlocks : Prop :=
  ∀ (k : InstrSet) (w : BitVec 32) (i : Instr) (t : Transfer), decodeWord k w = .ok i → i.transfer = some t →
    let D := (w.extractLsb' 22 1).toNat
    let Vd := (w.extractLsb' 12 4).toNat
    let imm8 := (w.extractLsb' 0 8).toNat
    (w.extractLsb' 8 2 = 0b11#2 ∨ w.extractLsb' 8 2 = 0b10#2) ∧
    t.add = (w.extractLsb' 23 1 == 1#1) ∧ t.wback = (w.extractLsb' 21 1 == 1#1) ∧ t.n = w.extractLsb' 16 4 ∧
    t.imm32.toNat = 4 * imm8 ∧
    (w.extractLsb' 8 2 = 0b11#2 →
      t.singleRegs = false ∧ t.d = 16 * D + Vd ∧ t.regs = imm8 / 2 ∧ t.imm32.toNat = 8 * t.regs) ∧
    (w.extractLsb' 8 2 = 0b10#2 →
      t.singleRegs = true ∧ t.d = 2 * Vd + D ∧ t.regs = imm8 ∧ t.imm32.toNat = 4 * t.regs)

/-! ## The step -/

/-- The step runs the instruction that the bytes at `pc` decode to, and adds nothing (40_vldm.md R74, 20_memory.md R48). -/
def Obligations.StepRunsTheDecodedInstruction : Prop :=
  ∀ (s : State) (i : Instr), PcAligned s → i.wf = true → decode s.iset (fetchBytes s) = .ok i → step s = exec i s

/-- 10_state.md R22: a step whose `pc` is not aligned for `iset` is refused; a step that completes had an aligned `pc`,
and `pc + 4` wraps modulo 2^32. The alignment is general knowledge in the spec (log 20). -/
def Obligations.StepChecksPcAlignment : Prop :=
  (∀ s : State, s.iset = .a32 → s.pc.extractLsb' 0 2 ≠ 0#2 → step s = .refused .pcMisaligned) ∧
  (∀ s : State, s.iset = .t32 → s.pc.extractLsb' 0 1 ≠ 0#1 → step s = .refused .pcMisaligned) ∧
  (∀ s t : State, step s = .next t → PcAligned s ∧ t.pc.toNat = (s.pc.toNat + 4) % 2 ^ 32)

/-- 30_encoding.md R63, R65: bytes that the decoder rejects refuse the step by name; in A32 so does every word with
`cond == 1111`, of which the cond field is the high half of the byte at `pc + 3`: the little-endian layout, general
knowledge in the spec (log 19). -/
def Obligations.RejectedBytesRefuseTheStep : Prop :=
  ∀ s : State, PcAligned s →
    (∀ why, decode s.iset (fetchBytes s) = .error why → step s = .refused (.notInSpec why)) ∧
    (s.iset = .a32 → (readByte s (s.pc + 3#32)).extractLsb' 4 4 = 15#4 → step s = .refused (.notInSpec .cond1111))

/-- A word of the opcode table that decodes is the instruction the next step runs, once placed in a canonical memory
(log 28: the model's own reading of how a program is loaded). -/
def Obligations.PlacedWordIsRunByTheNextStep : Prop :=
  ∀ (s : State) (nbits w : Nat) (i : Instr), s.mem.wf = true → decodeTableWord nbits w = some i →
    step (s.withFetchWord nbits w) = exec i (s.withFetchWord nbits w)

/-! ## Condition -/

/-- 10_state.md R25: the condition table, the `cond` field in A32 and the `it_cond` input, `1110` by default, in T32. The
table is general knowledge in the spec (log 15), the list of inputs is the model's (log 11). -/
def Obligations.ConditionTable : Prop :=
  (∀ n z c v : Bool,
    condTable 0b0000#4 n z c v = some (z == true) ∧ condTable 0b0001#4 n z c v = some (z == false) ∧
    condTable 0b0010#4 n z c v = some (c == true) ∧ condTable 0b0011#4 n z c v = some (c == false) ∧
    condTable 0b0100#4 n z c v = some (n == true) ∧ condTable 0b0101#4 n z c v = some (n == false) ∧
    condTable 0b0110#4 n z c v = some (v == true) ∧ condTable 0b0111#4 n z c v = some (v == false) ∧
    condTable 0b1000#4 n z c v = some (c == true && z == false) ∧
    condTable 0b1001#4 n z c v = some (c == false || z == true) ∧
    condTable 0b1010#4 n z c v = some (n == v) ∧ condTable 0b1011#4 n z c v = some (!(n == v)) ∧
    condTable 0b1100#4 n z c v = some (z == false && n == v) ∧
    condTable 0b1101#4 n z c v = some (z == true || !(n == v)) ∧ condTable 0b1110#4 n z c v = some true) ∧
  (∀ (s : State) (c : BitVec 4), condOk (.field c) s = condTable c s.flagN s.flagZ s.flagC s.flagV) ∧
  (∀ (s : State) (c : BitVec 4) (rest : List (BitVec 4)), s.itConds = c :: rest →
    condOk .itInput s = condTable c s.flagN s.flagZ s.flagC s.flagV) ∧
  (∀ s : State, s.itConds = [] → condOk .itInput s = some true)

/-- 40_vldm.md R88: a failed condition only advances `pc`, for every row inside the class diagrams, whatever its decode
checks, the enable check or memory would say. For the 64-bit-move and VLDR rows this is the model's choice, the condition
before the redirection as in R74 (log 24). A T32 instruction also uses up its `it_cond` input, the model's choice too
(log 11). -/
def Obligations.FailedConditionOnlyAdvancesPc : Prop :=
  ∀ (i : Instr) (s : State), i.redirect ≠ some .fldmx → condOk i.condSource s = some false →
    exec i s = .next { s with
      pc := s.pc + 4#32, itConds := if i.iset = .t32 then s.itConds.tail else s.itConds }

/-! ## UNDEFINED, redirects, UNPREDICTABLE -/

/-- 60_exceptions.md R95: `P == U && W == 1` in each of the four classes raises exactly when the condition passes,
whatever the enable check would say, and changes nothing. -/
def Obligations.UndefinedEncodingsRaiseWhenConditionPasses : Prop :=
  (∀ (k : InstrSet) (w : BitVec 32), FitsDiagram k w → w.extractLsb' 24 1 = w.extractLsb' 23 1 →
    w.extractLsb' 21 1 = 1#1 → ∃ i, decodeWord k w = .ok i ∧ i.isUndefined = true) ∧
  ∀ (i : Instr) (s : State), i.isUndefined = true →
    (condOk i.condSource s = some true → exec i s = .fault (.undefinedInstruction s.pc s)) ∧
    (condOk i.condSource s ≠ some true → ∀ f, exec i s ≠ .fault f)

/-- 30_encoding.md R62 with 40_vldm.md R74: the SEE rows inside the class diagrams are refused by name when their condition
passes. -/
def Obligations.SeeRowsAreRefusedByName : Prop :=
  ∀ (i : Instr) (s : State) (o : OtherInstr), i.redirect = some o → o ≠ .fldmx → condOk i.condSource s = some true →
    exec i s = .refused (.notThisInstruction o)

/-- 30_encoding.md R64: the FLDM*X words, by their masks, are refused by name in every state. -/
def Obligations.FldmxWordsAreRefusedByName : Prop :=
  ∀ (w : BitVec 32) (s : State),
    (w &&& 0x0E100F01#32 = 0x0C100B01#32 → w.extractLsb' 28 4 ≠ 15#4 →
      ∃ i, decodeWord .a32 w = .ok i ∧ exec i s = .refused (.notThisInstruction .fldmx)) ∧
    (w &&& 0xFE100F01#32 = 0xEC100B01#32 →
      ∃ i, decodeWord .t32 w = .ok i ∧ exec i s = .refused (.notThisInstruction .fldmx))

/-- 40_vldm.md R85: the PC as base with writeback, or in T32, is refused; its one defined use reads `pc + 8`. The offset
is general knowledge in the spec (log 14). -/
def Obligations.PcBaseIsRefusedOrReadsAhead : Prop :=
  (∀ (i : Instr) (t : Transfer) (s : State), i.transfer = some t → condOk i.condSource s = some true → t.n = 15#4 →
    (t.wback = true ∨ s.iset ≠ .a32) → exec i s = .refused .unpredictablePcBase) ∧
  (∀ (t : Transfer) (s : State), t.n = 15#4 → t.add = true → baseAddr t s = s.pc + 8#32)

/-- 40_vldm.md R86: the empty list under each value of `CU_REGS0`, and the refusal while it is left open. Under `LoadNone` the
enable check is made and nothing but `pc` moves. A T32 instruction that completes also uses up its `it_cond` input, the
model's choice (log 11). -/
def Obligations.EmptyListFollowsCuRegs0 : Prop :=
  ∀ (i : Instr) (t : Transfer) (s : State), i.transfer = some t → condOk i.condSource s = some true →
    ¬ (t.n = 15#4 ∧ (t.wback = true ∨ s.iset ≠ .a32)) → t.regs = 0 →
    let after : State := { s with
      pc := s.pc + 4#32, itConds := if i.iset = .t32 then s.itConds.tail else s.itConds }
    (s.cuRegs0 = some .undef → exec i s = .fault (.undefinedInstruction s.pc s)) ∧
    (s.cuRegs0 = some .nop → exec i s = .next after) ∧
    (s.cuRegs0 = some .loadNone → fpAccess s = .enabled → exec i s = .next after) ∧
    (s.cuRegs0 = some .loadNone → fpAccess s = .undefined → exec i s = .fault (.undefinedInstruction s.pc s)) ∧
    (s.cuRegs0 = some .loadNone → fpAccess s = .hypTrap → exec i s = .fault (.hypTrap s.pc s)) ∧
    (s.cuRegs0 = none → exec i s = .refused .unpredictableEmptyList)

/-- 40_vldm.md R87: a list too long under each value of `CU_RANGE`, and the refusal while it is left open. Under `Unknown` the
step ends in a `DataAbort` (which the rule also admits; only with access enabled and for a word whose read aborts,
60_exceptions.md R94, R100) or every `D` register is a new draw, the base is a new draw if there is writeback, and of the
rest only `pc` and the draw counter move. Which of the two it is, and the draws, are free values (logs 10, 12). A T32
instruction that completes also uses up its `it_cond` input, the model's choice (log 11). -/
def Obligations.LongListFollowsCuRange : Prop :=
  ∀ (i : Instr) (t : Transfer) (s : State), i.transfer = some t → condOk i.condSource s = some true →
    ¬ (t.n = 15#4 ∧ (t.wback = true ∨ s.iset ≠ .a32)) → ((t.singleRegs = false ∧ 16 < t.regs) ∨ 32 < t.d + t.regs) →
    (s.cuRange = some .undef → exec i s = .fault (.undefinedInstruction s.pc s)) ∧
    (s.cuRange = some .nop → exec i s = .next { s with
      pc := s.pc + 4#32, itConds := if i.iset = .t32 then s.itConds.tail else s.itConds }) ∧
    (s.cuRange = some .unknown →
      (∃ kind addr left, exec i s = .fault (.dataAbort kind addr left) ∧ FpEnabled s ∧
        memRead s addr = .error ⟨kind, addr⟩) ∨
      (∃ u, exec i s = .next u ∧ (∀ r < 32, readD u r = Config.draw64 (s.draws + r)) ∧
        WrittenBack s u t.n (t.wback = true) (Config.draw32 (s.draws + 32)) ∧
        OthersKept { s with draws := s.draws + if t.wback then 33 else 32 } u ∧ u.pc = s.pc + 4#32 ∧
        u.itConds = if i.iset = .t32 then s.itConds.tail else s.itConds)) ∧
    (s.cuRange = none → exec i s = .refused .unpredictableRange)

/-! ## Exceptions of a VLDM -/

/-- 60_exceptions.md R96, R97: the enable check comes after the decode checks and before the base is read, so it decides
the outcome whatever the base and memory are. -/
def Obligations.EnableCheckDecidesBeforeTheBase : Prop :=
  ∀ (i : Instr) (t : Transfer) (s : State), i.transfer = some t → ChecksPass i t s →
    (fpAccess s = .undefined → exec i s = .fault (.undefinedInstruction s.pc s)) ∧
    (fpAccess s = .hypTrap → exec i s = .fault (.hypTrap s.pc s))

/-- 20_memory.md R40: a byte range that crosses 2^32 is refused, and so is the Decrement Before of a base below `imm32`, a
base of 0 included (40_vldm.md R78, R80; log 21). -/
def Obligations.RangeAcrossTopIsRefused : Prop :=
  ∀ (i : Instr) (t : Transfer) (s : State), i.transfer = some t → ChecksPass i t s → FpEnabled s →
    (2 ^ 32 < (baseAddr t s).toNat + t.imm32.toNat → exec i s = .refused .addressWrap) ∧
    (t.add = false → (readReg s t.n).toNat < t.imm32.toNat → exec i s = .refused .addressWrap)

/-- 20_memory.md R40: a range that ends exactly at 2^32 is allowed: the list is loaded, and the written-back base wraps
to 0. -/
def Obligations.RangeUpToTopWrapsTheBase : Prop :=
  ∀ (i : Instr) (t : Transfer) (s : State), i.transfer = some t → ChecksPass i t s → FpEnabled s → t.add = true →
    t.wback = true → (readReg s t.n).toNat + t.imm32.toNat = 2 ^ 32 →
    ReadsAllowed s (readReg s t.n) (t.imm32.toNat / 4) → ∃ u, exec i s = .next u ∧
      (t.singleRegs = false → LoadedD s u t.d t.regs (readReg s t.n)) ∧
      (t.singleRegs = true → LoadedS s u t.d t.regs (readReg s t.n)) ∧ readReg u t.n = 0#32

/-- 60_exceptions.md R98: a misaligned base aborts at the first address and changes nothing; the base is aligned exactly
when `R[n]` is. The alignment abort is general knowledge in the spec (log 16). -/
def Obligations.MisalignedBaseAborts : Prop :=
  ∀ (i : Instr) (t : Transfer) (s : State), i.transfer = some t → ChecksPass i t s → FpEnabled s →
    (baseAddr t s).toNat + t.imm32.toNat ≤ 2 ^ 32 → (readReg s t.n).extractLsb' 0 2 ≠ 0#2 →
    exec i s = .fault (.dataAbort .alignment
      (if t.add then readReg s t.n else readReg s t.n - t.imm32) s)

/-- 60_exceptions.md R99 with 40_vldm.md R91: the lowest word that `MemAdmit` rejects aborts with its address; the base
keeps its value, every register of the list is a draw, and everything else is as it was. The values of the draws are
free (log 12). -/
def Obligations.RejectedWordAborts : Prop :=
  ∀ (i : Instr) (t : Transfer) (s : State) (j : Nat), i.transfer = some t → ChecksPass i t s → FpEnabled s →
    (baseAddr t s).toNat + t.imm32.toNat ≤ 2 ^ 32 → (t.add = false → t.imm32.toNat ≤ (readReg s t.n).toNat) →
    wordAligned (baseAddr t s) = true → j < t.imm32.toNat / 4 →
    MemAdmitted s (baseAddr t s) j → memAdmit s (baseAddr t s + BitVec.ofNat 32 (4 * j)) = false →
    ∃ left, exec i s = .fault (.dataAbort .other (baseAddr t s + BitVec.ofNat 32 (4 * j)) left) ∧
      left = { s with dregs := left.dregs, draws := left.draws } ∧
      (t.singleRegs = false →
        (∀ r < t.regs, readD left (t.d + r) = Config.draw64 (s.draws + r)) ∧
        ∀ r < 32, (r < t.d ∨ t.d + t.regs ≤ r) → readD left r = readD s r) ∧
      (t.singleRegs = true →
        (∀ r < t.regs, readS left (t.d + r) = Config.draw32 (s.draws + r)) ∧
        (∀ r < 32, (r < t.d ∨ t.d + t.regs ≤ r) → readS left r = readS s r) ∧
        ∀ r < 32, 16 ≤ r → readD left r = readD s r)

/-! ## What the eight encodings load (40_vldm.md section 2) -/

/-- 40_vldm.md R77: VLDM_A1 completes and loads its list. -/
def Obligations.VldmA1LoadsItsList : Prop :=
  ∀ (cond : BitVec 4) (d w : BitVec 1) (rn vd : BitVec 4) (imm7 : BitVec 7) (s : State),
    condOk (.field cond) s = some true → ¬ (rn = 15#4 ∧ (w = 1#1 ∨ s.iset ≠ .a32)) → 1 ≤ imm7.toNat →
    imm7.toNat ≤ 16 → 16 * d.toNat + vd.toNat + imm7.toNat ≤ 32 → FpEnabled s →
    ReadsAllowed s (readReg s rn) (2 * imm7.toNat) →
    ∃ t, exec (.vldmA1 cond d w rn vd imm7) s = .next t ∧
      LoadedD s t (16 * d.toNat + vd.toNat) imm7.toNat (readReg s rn) ∧
      WrittenBack s t rn (w = 1#1) (readReg s rn + BitVec.ofNat 32 (8 * imm7.toNat)) ∧
      t.pc = s.pc + 4#32 ∧ t.itConds = s.itConds ∧ OthersKept s t

/-- 40_vldm.md R78: VLDMDB_A1 completes and loads its list. -/
def Obligations.VldmdbA1LoadsItsList : Prop :=
  ∀ (cond : BitVec 4) (d : BitVec 1) (rn vd : BitVec 4) (imm7 : BitVec 7) (s : State),
    let base := readReg s rn - BitVec.ofNat 32 (8 * imm7.toNat)
    condOk (.field cond) s = some true → rn ≠ 15#4 → 1 ≤ imm7.toNat →
    imm7.toNat ≤ 16 → 16 * d.toNat + vd.toNat + imm7.toNat ≤ 32 → FpEnabled s →
    8 * imm7.toNat ≤ (readReg s rn).toNat → ReadsAllowed s base (2 * imm7.toNat) →
    ∃ t, exec (.vldmdbA1 cond d rn vd imm7) s = .next t ∧
      LoadedD s t (16 * d.toNat + vd.toNat) imm7.toNat base ∧ WrittenBack s t rn True base ∧
      t.pc = s.pc + 4#32 ∧ t.itConds = s.itConds ∧ OthersKept s t

/-- 40_vldm.md R79: VLDM_A2 completes and loads its list. -/
def Obligations.VldmA2LoadsItsList : Prop :=
  ∀ (cond : BitVec 4) (d w : BitVec 1) (rn vd : BitVec 4) (imm8 : BitVec 8) (s : State),
    condOk (.field cond) s = some true → ¬ (rn = 15#4 ∧ (w = 1#1 ∨ s.iset ≠ .a32)) → 1 ≤ imm8.toNat →
    2 * vd.toNat + d.toNat + imm8.toNat ≤ 32 → FpEnabled s → ReadsAllowed s (readReg s rn) imm8.toNat →
    ∃ t, exec (.vldmA2 cond d w rn vd imm8) s = .next t ∧
      LoadedS s t (2 * vd.toNat + d.toNat) imm8.toNat (readReg s rn) ∧
      WrittenBack s t rn (w = 1#1) (readReg s rn + BitVec.ofNat 32 (4 * imm8.toNat)) ∧
      t.pc = s.pc + 4#32 ∧ t.itConds = s.itConds ∧ OthersKept s t

/-- 40_vldm.md R80: VLDMDB_A2 completes and loads its list. -/
def Obligations.VldmdbA2LoadsItsList : Prop :=
  ∀ (cond : BitVec 4) (d : BitVec 1) (rn vd : BitVec 4) (imm8 : BitVec 8) (s : State),
    let base := readReg s rn - BitVec.ofNat 32 (4 * imm8.toNat)
    condOk (.field cond) s = some true → rn ≠ 15#4 → 1 ≤ imm8.toNat →
    2 * vd.toNat + d.toNat + imm8.toNat ≤ 32 → FpEnabled s →
    4 * imm8.toNat ≤ (readReg s rn).toNat → ReadsAllowed s base imm8.toNat →
    ∃ t, exec (.vldmdbA2 cond d rn vd imm8) s = .next t ∧
      LoadedS s t (2 * vd.toNat + d.toNat) imm8.toNat base ∧ WrittenBack s t rn True base ∧
      t.pc = s.pc + 4#32 ∧ t.itConds = s.itConds ∧ OthersKept s t

/-- 40_vldm.md R81: VLDM_T1 completes and loads its list. The `it_cond` input is used up (log 11). -/
def Obligations.VldmT1LoadsItsList : Prop :=
  ∀ (d w : BitVec 1) (rn vd : BitVec 4) (imm7 : BitVec 7) (s : State),
    condOk .itInput s = some true → rn ≠ 15#4 → 1 ≤ imm7.toNat →
    imm7.toNat ≤ 16 → 16 * d.toNat + vd.toNat + imm7.toNat ≤ 32 → FpEnabled s →
    ReadsAllowed s (readReg s rn) (2 * imm7.toNat) →
    ∃ t, exec (.vldmT1 d w rn vd imm7) s = .next t ∧
      LoadedD s t (16 * d.toNat + vd.toNat) imm7.toNat (readReg s rn) ∧
      WrittenBack s t rn (w = 1#1) (readReg s rn + BitVec.ofNat 32 (8 * imm7.toNat)) ∧
      t.pc = s.pc + 4#32 ∧ t.itConds = s.itConds.tail ∧ OthersKept s t

/-- 40_vldm.md R82: VLDMDB_T1 completes and loads its list. The `it_cond` input is used up (log 11). -/
def Obligations.VldmdbT1LoadsItsList : Prop :=
  ∀ (d : BitVec 1) (rn vd : BitVec 4) (imm7 : BitVec 7) (s : State),
    let base := readReg s rn - BitVec.ofNat 32 (8 * imm7.toNat)
    condOk .itInput s = some true → rn ≠ 15#4 → 1 ≤ imm7.toNat →
    imm7.toNat ≤ 16 → 16 * d.toNat + vd.toNat + imm7.toNat ≤ 32 → FpEnabled s →
    8 * imm7.toNat ≤ (readReg s rn).toNat → ReadsAllowed s base (2 * imm7.toNat) →
    ∃ t, exec (.vldmdbT1 d rn vd imm7) s = .next t ∧
      LoadedD s t (16 * d.toNat + vd.toNat) imm7.toNat base ∧ WrittenBack s t rn True base ∧
      t.pc = s.pc + 4#32 ∧ t.itConds = s.itConds.tail ∧ OthersKept s t

/-- 40_vldm.md R83: VLDM_T2 completes and loads its list. The `it_cond` input is used up (log 11). -/
def Obligations.VldmT2LoadsItsList : Prop :=
  ∀ (d w : BitVec 1) (rn vd : BitVec 4) (imm8 : BitVec 8) (s : State),
    condOk .itInput s = some true → rn ≠ 15#4 → 1 ≤ imm8.toNat →
    2 * vd.toNat + d.toNat + imm8.toNat ≤ 32 → FpEnabled s → ReadsAllowed s (readReg s rn) imm8.toNat →
    ∃ t, exec (.vldmT2 d w rn vd imm8) s = .next t ∧
      LoadedS s t (2 * vd.toNat + d.toNat) imm8.toNat (readReg s rn) ∧
      WrittenBack s t rn (w = 1#1) (readReg s rn + BitVec.ofNat 32 (4 * imm8.toNat)) ∧
      t.pc = s.pc + 4#32 ∧ t.itConds = s.itConds.tail ∧ OthersKept s t

/-- 40_vldm.md R84: VLDMDB_T2 completes and loads its list. The `it_cond` input is used up (log 11). -/
def Obligations.VldmdbT2LoadsItsList : Prop :=
  ∀ (d : BitVec 1) (rn vd : BitVec 4) (imm8 : BitVec 8) (s : State),
    let base := readReg s rn - BitVec.ofNat 32 (4 * imm8.toNat)
    condOk .itInput s = some true → rn ≠ 15#4 → 1 ≤ imm8.toNat →
    2 * vd.toNat + d.toNat + imm8.toNat ≤ 32 → FpEnabled s →
    4 * imm8.toNat ≤ (readReg s rn).toNat → ReadsAllowed s base imm8.toNat →
    ∃ t, exec (.vldmdbT2 d rn vd imm8) s = .next t ∧
      LoadedS s t (2 * vd.toNat + d.toNat) imm8.toNat base ∧ WrittenBack s t rn True base ∧
      t.pc = s.pc + 4#32 ∧ t.itConds = s.itConds.tail ∧ OthersKept s t

/-- 40_vldm.md section 4: a word that disassembles as VPOP (Increment After, `W = 1`, base `R[13]`) is the ordinary load of its
class from `R[13]` upward. That a T32 one also uses up its `it_cond` input, and an A32 one none, is the model's choice
(log 11). -/
def Obligations.VpopIsTheLoadOfItsClass : Prop :=
  ∀ (k : InstrSet) (w : BitVec 32) (s : State), FitsDiagram k w → w.extractLsb' 24 1 = 0#1 →
    w.extractLsb' 23 1 = 1#1 → w.extractLsb' 21 1 = 1#1 → w.extractLsb' 16 4 = 13#4 →
    ∃ i t, decodeWord k w = .ok i ∧ i.transfer = some t ∧ baseAddr t s = readReg s 13#4 ∧
      (ChecksPass i t s → FpEnabled s → ReadsAllowed s (readReg s 13#4) (t.imm32.toNat / 4) →
        ∃ u, exec i s = .next u ∧
          (t.singleRegs = false → LoadedD s u t.d t.regs (readReg s 13#4)) ∧
          (t.singleRegs = true → LoadedS s u t.d t.regs (readReg s 13#4)) ∧
          WrittenBack s u 13#4 True (readReg s 13#4 + t.imm32) ∧ u.pc = s.pc + 4#32 ∧
          u.itConds = (if k = .t32 then s.itConds.tail else s.itConds) ∧ OthersKept s u)

/-! ## Registers and memory -/

/-- 10_state.md R27: how the `S` and `D` views of the register file overlap; general knowledge in the spec (log 18). -/
def Obligations.SingleAndDoubleViewsOverlap : Prop :=
  (∀ (s : State) (i : Nat), i ≤ 15 →
    (readD s i).extractLsb' 0 32 = readS s (2 * i) ∧ (readD s i).extractLsb' 32 32 = readS s (2 * i + 1)) ∧
  (∀ (s : State) (i : Nat) (v : DWord), i ≤ 15 →
    readS (writeD s i v) (2 * i) = v.extractLsb' 0 32 ∧ readS (writeD s i v) (2 * i + 1) = v.extractLsb' 32 32) ∧
  (∀ (s : State) (i : Nat) (v : DWord), 16 ≤ i → ∀ j < 32, readS (writeD s i v) j = readS s j) ∧
  (∀ (s : State) (j : Nat) (w : Word), j < 32 →
    (readD (writeS s j w) (j / 2)).extractLsb' (32 * (j % 2)) 32 = w ∧
    (readD (writeS s j w) (j / 2)).extractLsb' (32 * (1 - j % 2)) 32 =
      (readD s (j / 2)).extractLsb' (32 * (1 - j % 2)) 32 ∧
    ∀ i, i ≠ j / 2 → readD (writeS s j w) i = readD s i)

/-- 20_memory.md R34 to R37: what `MemRead(addr, 4)` answers. Alignment abort and byte order are general knowledge in
the spec (logs 16, 17). -/
def Obligations.MemReadChecksThenAssembles : Prop :=
  ∀ (s : State) (a : Word),
    (a.extractLsb' 0 2 ≠ 0#2 → memRead s a = .error ⟨.alignment, a⟩) ∧
    (a.extractLsb' 0 2 = 0#2 → memAdmit s a = false → memRead s a = .error ⟨.other, a⟩) ∧
    (a.extractLsb' 0 2 = 0#2 → memAdmit s a = true → s.bigEndian = false → memRead s a =
      .ok (readByte s (a + 3#32) ++ readByte s (a + 2#32) ++ readByte s (a + 1#32) ++ readByte s a)) ∧
    (a.extractLsb' 0 2 = 0#2 → memAdmit s a = true → s.bigEndian = true → memRead s a =
      .ok (readByte s a ++ readByte s (a + 1#32) ++ readByte s (a + 2#32) ++ readByte s (a + 3#32)))

/-- 20_memory.md R38: the two words of a `D` register make the 64-bit number at the address, in the current endianness. The
order of the bytes inside each word is general knowledge in the spec (R37, log 17). -/
def Obligations.DoubleRegisterIsTheNumberAtItsAddress : Prop :=
  ∀ (s : State) (a : Word),
    let b := fun j : Nat => readByte s (a + BitVec.ofNat 32 j)
    (s.bigEndian = false → combineWords s.bigEndian (wordAt s a) (wordAt s (a + 4#32)) =
      b 7 ++ b 6 ++ b 5 ++ b 4 ++ b 3 ++ b 2 ++ b 1 ++ b 0) ∧
    (s.bigEndian = true → combineWords s.bigEndian (wordAt s a) (wordAt s (a + 4#32)) =
      b 0 ++ b 1 ++ b 2 ++ b 3 ++ b 4 ++ b 5 ++ b 6 ++ b 7)

/-! ## The whole machine -/

/-- 40_vldm.md R92, 10_state.md R24, R28, R30, 20_memory.md R32: no instruction changes a flag, `iset`, `E`, `DIT`, an
enable input, an interrupt mask, a parameter or any byte of memory. -/
def Obligations.NoInstructionChangesControlStateOrMemory : Prop :=
  ∀ (i : Instr) (s t : State), exec i s = .next t →
    t.flagN = s.flagN ∧ t.flagZ = s.flagZ ∧ t.flagC = s.flagC ∧ t.flagV = s.flagV ∧ t.iset = s.iset ∧
    t.bigEndian = s.bigEndian ∧ t.dit = s.dit ∧ t.enable = s.enable ∧ t.intMasks = s.intMasks ∧ t.fpGrant = s.fpGrant ∧
    t.admitted = s.admitted ∧ t.cuRegs0 = s.cuRegs0 ∧ t.cuRange = s.cuRange ∧ t.mem = s.mem ∧ ∀ a, readByte t a = readByte s a

/-- 10_state.md R17: at most one general-purpose register is written, the base, and only with writeback, so too under the
constrained-unpredictable cases; and none but the base is read: another value in any other register changes nothing but
that register. -/
def Obligations.OnlyTheBaseRegisterIsUsed : Prop :=
  ∀ (i : Instr) (s : State),
    (∀ t, exec i s = .next t → ∀ r : BitVec 4, r ≠ 15#4 →
      (∀ x, i.transfer = some x → x.wback = true → r ≠ x.n) → readReg t r = readReg s r) ∧
    (∀ (r : BitVec 4) (v : Word), r ≠ 15#4 → (∀ x, i.transfer = some x → r ≠ x.n) →
      exec i (writeReg s r v) = mapState (fun u => writeReg u r v) (exec i s))

/-- 40_vldm.md R92, 10_state.md R28: outside the constrained-unpredictable list of R87, no `D` register outside the list
is changed, and no half of one outside an `S` list; the rows that are no VLDM change none. -/
def Obligations.RegistersOutsideTheListAreKept : Prop :=
  ∀ (i : Instr) (s t : State), exec i s = .next t →
    (∀ x, i.transfer = some x → (x.singleRegs = true ∨ x.regs ≤ 16) ∧ x.d + x.regs ≤ 32) →
    (∀ r < 32, (∀ x, i.transfer = some x → x.singleRegs = false → r < x.d ∨ x.d + x.regs ≤ r) →
      (∀ x, i.transfer = some x → x.singleRegs = true → 16 ≤ r) → readD t r = readD s r) ∧
    (∀ r < 32, ∀ x, i.transfer = some x → x.singleRegs = true → (r < x.d ∨ x.d + x.regs ≤ r) →
      readS t r = readS s r)

/-- 10_state.md R21: a completed instruction advances `pc` by 4 modulo 2^32, and a fault leaves it. -/
def Obligations.PcAdvancesByFourOrStays : Prop :=
  ∀ (i : Instr) (s : State),
    (∀ t, exec i s = .next t → t.pc = s.pc + 4#32) ∧ (∀ f, exec i s = .fault f → f.left.pc = s.pc)

/-- 60_exceptions.md R104: every fault is precise in `pc`, the general-purpose registers, the flags and memory; the
SIMD&FP registers are unchanged after every fault but `DataAbort(Other)`. -/
def Obligations.FaultsArePrecise : Prop :=
  ∀ (i : Instr) (s : State) (f : Fault), exec i s = .fault f →
    f.left = { s with dregs := f.left.dregs, draws := f.left.draws } ∧ (f.isOtherAbort = false → f.left = s)

/-- 10_state.md R30, 40_vldm.md R92: `CPSR.DIT` changes no value. Two runs that differ in it differ in nothing else. -/
def Obligations.DitChangesNoValue : Prop :=
  ∀ (i : Instr) (s : State) (b : Bool), exec i (withDit b s) = mapState (withDit b) (exec i s)

/-- 20_memory.md R39: the bytes read are those of `[base, base + imm32)`: two memories that agree there give outcomes that
differ in nothing but the memory. An instruction that is no VLDM reads none. R39 speaks of the defined transfer. That a list
too long under `CU_RANGE = Unknown` depends on no other byte either, in its draws or in its abort, and that the draws after
`DataAbort(Other)` do not, is the model's choice: both are free values of the draw counter, on which the two runs agree
(logs 10, 12). -/
def Obligations.OnlyTheListedBytesAreRead : Prop :=
  ∀ (i : Instr) (s : State) (m : Memory),
    (∀ x, i.transfer = some x → ∀ a : Word, (a - baseAddr x s).toNat < x.imm32.toNat →
      m.read a.toNat = s.mem.read a.toNat) →
    exec i (withMem m s) = mapState (withMem m) (exec i s)

/-- The invariant that every step keeps: memory in canonical form (20_memory.md R32), `pc` aligned (10_state.md R22), no
`it_cond` input outside the table (10_state.md R25). -/
def Obligations.EveryStepKeepsInv : Prop :=
  ∀ s t : State, Inv s → step s = .next t → Inv t

/-- The state at reset meets the invariant. The reset values are the model's choices (logs 1 to 5). -/
def Obligations.ResetMeetsInv : Prop :=
  Inv State.reset

/-- The state at reset: the values are the model's own choices, since the spec gives none (logs 1 to 5); the four open
parameters of 00_scope.md R6 stay open (logs 6 to 9) and no `it_cond` input is supplied (log 11). -/
def Obligations.ResetAssumesNoParameter : Prop :=
  State.reset.fpGrant = none ∧ State.reset.admitted = none ∧ State.reset.cuRegs0 = none ∧
  State.reset.cuRange = none ∧ State.reset.itConds = [] ∧ State.reset.mem = [] ∧
  State.reset.pc = 0#32 ∧ State.reset.iset = .a32 ∧ (∀ n, n ≠ 15#4 → readReg State.reset n = 0#32) ∧
  (∀ r, readD State.reset r = 0#64)

/-- 70_reset_and_hazards.md R120: since no instruction writes an input of the enable check (40_vldm.md R92, 10_state.md R29),
access that is enabled at launch is enabled throughout the run. That the check depends on nothing else is log 6. -/
def Obligations.EnabledAtLaunchIsEnabledThroughout : Prop :=
  ∀ (count : Nat) (s : State), FpEnabled s → FPEnabledThroughout count s

/-- 70_reset_and_hazards.md R119: a run that ends without a fault or refusal ends at the named address, in the state of the
first step at which `pc` is it; no instruction branches (10_state.md R21), so that this is the step that the distance to the
address gives. A run has one end. That the run to the address at which it starts ends at once is the model's reading
(log 35). -/
def Obligations.RunEndsWhenPcFirstReachesTheNamedAddress : Prop :=
  ∀ (s : State) (goal : Word),
    (∀ t, RunEnds s goal (.next t) ↔
      ∃ count, runSteps count s = .next t ∧ t.pc = goal ∧ ∀ j < count, ∀ u, runSteps j s = .next u → u.pc ≠ goal) ∧
    (∀ t, RunEnds s goal (.next t) ↔ runSteps ((goal - s.pc).toNat / 4) s = .next t ∧ t.pc = goal) ∧
    (∀ r r', RunEnds s goal r → RunEnds s goal r' → r = r')
end

