-- ==== Sys2Proof/Laws/Decode.lean ====
section
/-! SUPPORT. What the decoder can answer: one inversion lemma for each instruction set, the bits of the layout they
share, and the words and bytes of an instruction. -/

namespace Sys2Proof

/-- A bit is 0 or 1. -/
theorem bit_cases (x : BitVec 1) : x = 0#1 ∨ x = 1#1 := by revert x; decide

/-- The fixed bits below bit 28, field by field. -/
theorem inLoadSpace_iff (w : BitVec 32) :
    inLoadSpace w = true ↔
      w.extractLsb' 25 3 = 0b110#3 ∧ w.extractLsb' 20 1 = 1#1 ∧ w.extractLsb' 10 2 = 0b10#2 := by
  simp [inLoadSpace, and_assoc]

/-- When an A32 word decodes, and to what. -/
theorem decodeA32_ok (w : BitVec 32) (i : Instr) :
    decodeA32 w = .ok i ↔
      w.extractLsb' 28 4 ≠ 15#4 ∧ inLoadSpace w = true ∧
      ((w.extractLsb' 8 2 = 3#2 ∧ w.extractLsb' 0 1 = 1#1 ∧
          i = .seeFldmxA32 (w.extractLsb' 28 4) (w.extractLsb' 24 1) (w.extractLsb' 23 1) (w.extractLsb' 22 1)
            (w.extractLsb' 21 1) (w.extractLsb' 16 4) (w.extractLsb' 12 4) (w.extractLsb' 1 7)) ∨
       (w.extractLsb' 8 2 = 3#2 ∧ w.extractLsb' 0 1 = 0#1 ∧
          i = decodeA1 (w.extractLsb' 28 4) (w.extractLsb' 24 1) (w.extractLsb' 23 1) (w.extractLsb' 22 1)
            (w.extractLsb' 21 1) (w.extractLsb' 16 4) (w.extractLsb' 12 4) (w.extractLsb' 1 7)) ∨
       (w.extractLsb' 8 2 = 2#2 ∧
          i = decodeA2 (w.extractLsb' 28 4) (w.extractLsb' 24 1) (w.extractLsb' 23 1) (w.extractLsb' 22 1)
            (w.extractLsb' 21 1) (w.extractLsb' 16 4) (w.extractLsb' 12 4) (w.extractLsb' 0 8))) := by
  unfold decodeA32
  by_cases hc : w.extractLsb' 28 4 = 15#4
  · simp [hc]
  by_cases hl : inLoadSpace w = true
  swap
  · simp [hc, hl]
  by_cases h3 : w.extractLsb' 8 2 = 3#2
  · rcases bit_cases (w.extractLsb' 0 1) with h0 | h0 <;> simp [hc, hl, h3, h0, eq_comm]
  · by_cases h2 : w.extractLsb' 8 2 = 2#2 <;> simp [hc, hl, h3, h2, eq_comm]

/-- When a T32 word decodes, and to what. -/
theorem decodeT32_ok (w : BitVec 32) (i : Instr) :
    decodeT32 w = .ok i ↔
      w.extractLsb' 28 4 = 14#4 ∧ inLoadSpace w = true ∧
      ((w.extractLsb' 8 2 = 3#2 ∧ w.extractLsb' 0 1 = 1#1 ∧
          i = .seeFldmxT32 (w.extractLsb' 24 1) (w.extractLsb' 23 1) (w.extractLsb' 22 1)
            (w.extractLsb' 21 1) (w.extractLsb' 16 4) (w.extractLsb' 12 4) (w.extractLsb' 1 7)) ∨
       (w.extractLsb' 8 2 = 3#2 ∧ w.extractLsb' 0 1 = 0#1 ∧
          i = decodeT1 (w.extractLsb' 24 1) (w.extractLsb' 23 1) (w.extractLsb' 22 1)
            (w.extractLsb' 21 1) (w.extractLsb' 16 4) (w.extractLsb' 12 4) (w.extractLsb' 1 7)) ∨
       (w.extractLsb' 8 2 = 2#2 ∧
          i = decodeT2 (w.extractLsb' 24 1) (w.extractLsb' 23 1) (w.extractLsb' 22 1)
            (w.extractLsb' 21 1) (w.extractLsb' 16 4) (w.extractLsb' 12 4) (w.extractLsb' 0 8))) := by
  unfold decodeT32
  by_cases hc : w.extractLsb' 28 4 = 14#4
  swap
  · simp [hc]
  by_cases hl : inLoadSpace w = true
  swap
  · simp [hc, hl]
  by_cases h3 : w.extractLsb' 8 2 = 3#2
  · rcases bit_cases (w.extractLsb' 0 1) with h0 | h0 <;> simp [hc, hl, h3, h0, eq_comm]
  · by_cases h2 : w.extractLsb' 8 2 = 2#2 <;> simp [hc, hl, h3, h2, eq_comm]

/-- A field inside the upper part of two concatenated bit strings. -/
theorem field_upper {a b : Nat} (x : BitVec a) (y : BitVec b) (s l : Nat) (h : b ≤ s) :
    (x ++ y).extractLsb' s l = x.extractLsb' (s - b) l := by
  rw [BitVec.extractLsb'_append_eq_ite, dif_neg (by omega)]

/-- A field inside the lower part of two concatenated bit strings. -/
theorem field_lower {a b : Nat} (x : BitVec a) (y : BitVec b) (s l : Nat) (h : s + l ≤ b) (hl : 0 < l) :
    (x ++ y).extractLsb' s l = y.extractLsb' s l := by
  rw [BitVec.extractLsb'_append_eq_ite, dif_pos (by omega), dif_pos h]

/-- Two adjacent fields of a bit string are one field. -/
theorem field_join {n : Nat} (w : BitVec n) (s₁ l₁ s₂ l₂ : Nat) (h : s₁ = s₂ + l₂) :
    w.extractLsb' s₁ l₁ ++ w.extractLsb' s₂ l₂ = w.extractLsb' s₂ (l₁ + l₂) := by
  subst h
  apply BitVec.eq_of_getLsbD_eq
  intro i hi
  simp only [BitVec.getLsbD_append, BitVec.getLsbD_extractLsb']
  by_cases hl : i < l₂
  · simp [hl, hi]
  · simp [hl, hi, show i - l₂ < l₁ by omega, show s₂ + l₂ + (i - l₂) = s₂ + i by omega]

/-- The fields of a word of the shared layout. -/
theorem loadWord_fields (top : BitVec 4) (p u d w : BitVec 1) (rn vd : BitVec 4) (size : BitVec 2) (imm8 : BitVec 8) :
    (loadWord top p u d w rn vd size imm8).extractLsb' 28 4 = top ∧
    (loadWord top p u d w rn vd size imm8).extractLsb' 25 3 = 0b110#3 ∧
    (loadWord top p u d w rn vd size imm8).extractLsb' 24 1 = p ∧
    (loadWord top p u d w rn vd size imm8).extractLsb' 23 1 = u ∧
    (loadWord top p u d w rn vd size imm8).extractLsb' 22 1 = d ∧
    (loadWord top p u d w rn vd size imm8).extractLsb' 21 1 = w ∧
    (loadWord top p u d w rn vd size imm8).extractLsb' 20 1 = 1#1 ∧
    (loadWord top p u d w rn vd size imm8).extractLsb' 16 4 = rn ∧
    (loadWord top p u d w rn vd size imm8).extractLsb' 12 4 = vd ∧
    (loadWord top p u d w rn vd size imm8).extractLsb' 10 2 = 0b10#2 ∧
    (loadWord top p u d w rn vd size imm8).extractLsb' 8 2 = size ∧
    (loadWord top p u d w rn vd size imm8).extractLsb' 0 8 = imm8 := by
  unfold loadWord
  refine ⟨?_, ?_, ?_, ?_, ?_, ?_, ?_, ?_, ?_, ?_, ?_, ?_⟩ <;>
  · repeat first
      | refine (field_lower _ _ _ _ (by decide) (by decide)).trans ?_
      | refine (field_upper _ _ _ _ (by decide)).trans ?_
    exact BitVec.extractLsb'_eq_self

/-- A word of the shared layout is made of its fields. -/
theorem loadWord_of_fields (w : BitVec 32) (h : inLoadSpace w = true) :
    loadWord (w.extractLsb' 28 4) (w.extractLsb' 24 1) (w.extractLsb' 23 1) (w.extractLsb' 22 1) (w.extractLsb' 21 1)
      (w.extractLsb' 16 4) (w.extractLsb' 12 4) (w.extractLsb' 8 2) (w.extractLsb' 0 8) = w := by
  obtain ⟨h1, h2, h3⟩ := (inLoadSpace_iff w).1 h
  unfold loadWord
  rw [← h1, ← h2, ← h3, field_join w 28 4 25 3 rfl, field_join w 25 _ 24 1 rfl, field_join w 24 _ 23 1 rfl,
    field_join w 23 _ 22 1 rfl, field_join w 22 _ 21 1 rfl, field_join w 21 _ 20 1 rfl, field_join w 20 _ 16 4 rfl,
    field_join w 16 _ 12 4 rfl, field_join w 12 _ 10 2 rfl, field_join w 10 _ 8 2 rfl, field_join w 8 _ 0 8 rfl]
  exact BitVec.extractLsb'_eq_self

/-- Bits 7:1 and bit 0 of a word make its `imm8`. -/
theorem imm8_of_parts (w : BitVec 32) (b : BitVec 1) (h : w.extractLsb' 0 1 = b) :
    w.extractLsb' 1 7 ++ b = w.extractLsb' 0 8 := by
  rw [← h]
  exact field_join w 1 7 0 1 rfl

/-- The bytes of an A32 word make it again. -/
theorem wordOfBytesA32_split (w : BitVec 32) :
    wordOfBytesA32 (w.extractLsb' 0 8) (w.extractLsb' 8 8) (w.extractLsb' 16 8) (w.extractLsb' 24 8) = w := by
  unfold wordOfBytesA32
  rw [field_join w 24 8 16 8 rfl, field_join w 16 _ 8 8 rfl, field_join w 8 _ 0 8 rfl]
  exact BitVec.extractLsb'_eq_self

/-- The bytes of a T32 word make it again. -/
theorem wordOfHalfwords_split (w : BitVec 32) :
    wordOfHalfwords (halfwordOfBytes (w.extractLsb' 16 8) (w.extractLsb' 24 8))
      (halfwordOfBytes (w.extractLsb' 0 8) (w.extractLsb' 8 8)) = w := by
  have h : halfwordOfBytes (w.extractLsb' 16 8) (w.extractLsb' 24 8) = w.extractLsb' 16 16 := field_join w 24 8 16 8 rfl
  have h' : halfwordOfBytes (w.extractLsb' 0 8) (w.extractLsb' 8 8) = w.extractLsb' 0 16 := field_join w 8 8 0 8 rfl
  rw [h, h']
  exact (field_join w 16 16 0 16 rfl).trans BitVec.extractLsb'_eq_self

/-- A field equals a literal bit by bit. -/
theorem field_eq_iff (w : BitVec 32) (a n : Nat) (c : BitVec n) :
    w.extractLsb' a n = c ↔ ∀ i : Fin n, w.getLsbD (a + i) = c.getLsbD i := by
  constructor
  · rintro rfl i
    simp
  · intro h
    apply BitVec.eq_of_getLsbD_eq
    intro i hi
    rw [← h ⟨i, hi⟩]
    simp [hi]

/-- A masked word equals a pattern bit by bit. -/
theorem masked_eq_iff (w m c : BitVec 32) :
    w &&& m = c ↔ ∀ i : Fin 32, (w.getLsbD i && m.getLsbD i) = c.getLsbD i := by
  constructor
  · rintro rfl i
    simp
  · intro h
    apply BitVec.eq_of_getLsbD_eq
    intro i hi
    rw [← h ⟨i, hi⟩]
    simp

/-- What the `P`, `U`, `W` map of class A1 answers (30_encoding.md R58). -/
theorem decodeA1_eq_iff (c p u d w rn vd m) (i : Instr) : decodeA1 c p u d w rn vd m = i ↔
    (p = 0#1 ∧ u = 0#1 ∧ w = 0#1 ∧ i = .seeMov64A1 c d rn vd m) ∨ (p = 1#1 ∧ w = 0#1 ∧ i = .seeVldrA1 c u d rn vd m) ∨
    (p = 0#1 ∧ u = 0#1 ∧ w = 1#1 ∧ i = .undefA1Puw001 c d rn vd m) ∨
    (p = 1#1 ∧ u = 1#1 ∧ w = 1#1 ∧ i = .undefA1Puw111 c d rn vd m) ∨
    (p = 0#1 ∧ u = 1#1 ∧ i = .vldmA1 c d w rn vd m) ∨ (p = 1#1 ∧ u = 0#1 ∧ w = 1#1 ∧ i = .vldmdbA1 c d rn vd m) := by
  rcases bit_cases p with rfl | rfl <;> rcases bit_cases u with rfl | rfl <;> rcases bit_cases w with rfl | rfl <;>
    simp [decodeA1, eq_comm]

/-- What the `P`, `U`, `W` map of class A2 answers (30_encoding.md R58). -/
theorem decodeA2_eq_iff (c p u d w rn vd m) (i : Instr) : decodeA2 c p u d w rn vd m = i ↔
    (p = 0#1 ∧ u = 0#1 ∧ w = 0#1 ∧ i = .seeMov64A2 c d rn vd m) ∨ (p = 1#1 ∧ w = 0#1 ∧ i = .seeVldrA2 c u d rn vd m) ∨
    (p = 0#1 ∧ u = 0#1 ∧ w = 1#1 ∧ i = .undefA2Puw001 c d rn vd m) ∨
    (p = 1#1 ∧ u = 1#1 ∧ w = 1#1 ∧ i = .undefA2Puw111 c d rn vd m) ∨
    (p = 0#1 ∧ u = 1#1 ∧ i = .vldmA2 c d w rn vd m) ∨ (p = 1#1 ∧ u = 0#1 ∧ w = 1#1 ∧ i = .vldmdbA2 c d rn vd m) := by
  rcases bit_cases p with rfl | rfl <;> rcases bit_cases u with rfl | rfl <;> rcases bit_cases w with rfl | rfl <;>
    simp [decodeA2, eq_comm]

/-- What the `P`, `U`, `W` map of class T1 answers (30_encoding.md R58). -/
theorem decodeT1_eq_iff (p u d w rn vd m) (i : Instr) : decodeT1 p u d w rn vd m = i ↔
    (p = 0#1 ∧ u = 0#1 ∧ w = 0#1 ∧ i = .seeMov64T1 d rn vd m) ∨ (p = 1#1 ∧ w = 0#1 ∧ i = .seeVldrT1 u d rn vd m) ∨
    (p = 0#1 ∧ u = 0#1 ∧ w = 1#1 ∧ i = .undefT1Puw001 d rn vd m) ∨
    (p = 1#1 ∧ u = 1#1 ∧ w = 1#1 ∧ i = .undefT1Puw111 d rn vd m) ∨
    (p = 0#1 ∧ u = 1#1 ∧ i = .vldmT1 d w rn vd m) ∨ (p = 1#1 ∧ u = 0#1 ∧ w = 1#1 ∧ i = .vldmdbT1 d rn vd m) := by
  rcases bit_cases p with rfl | rfl <;> rcases bit_cases u with rfl | rfl <;> rcases bit_cases w with rfl | rfl <;>
    simp [decodeT1, eq_comm]

/-- What the `P`, `U`, `W` map of class T2 answers (30_encoding.md R58). -/
theorem decodeT2_eq_iff (p u d w rn vd m) (i : Instr) : decodeT2 p u d w rn vd m = i ↔
    (p = 0#1 ∧ u = 0#1 ∧ w = 0#1 ∧ i = .seeMov64T2 d rn vd m) ∨ (p = 1#1 ∧ w = 0#1 ∧ i = .seeVldrT2 u d rn vd m) ∨
    (p = 0#1 ∧ u = 0#1 ∧ w = 1#1 ∧ i = .undefT2Puw001 d rn vd m) ∨
    (p = 1#1 ∧ u = 1#1 ∧ w = 1#1 ∧ i = .undefT2Puw111 d rn vd m) ∨
    (p = 0#1 ∧ u = 1#1 ∧ i = .vldmT2 d w rn vd m) ∨ (p = 1#1 ∧ u = 0#1 ∧ w = 1#1 ∧ i = .vldmdbT2 d rn vd m) := by
  rcases bit_cases p with rfl | rfl <;> rcases bit_cases u with rfl | rfl <;> rcases bit_cases w with rfl | rfl <;>
    simp [decodeT2, eq_comm]

end Sys2Proof
end

