-- ==== Sys2Proof/Laws/State.lean ====
section
/-! SUPPORT. One lemma per field per update of State, so that no later proof unfolds a record update. -/

namespace Sys2Proof.Machine

/-! ### writeReg -/

@[simp] theorem writeReg_regs (s : State) (n : BitVec 4) (v : Word) : (writeReg s n v).regs = s.regs.setIfInBounds n.toNat v := rfl
@[simp] theorem writeReg_pc (s : State) (n : BitVec 4) (v : Word) : (writeReg s n v).pc = s.pc := rfl
@[simp] theorem writeReg_iset (s : State) (n : BitVec 4) (v : Word) : (writeReg s n v).iset = s.iset := rfl
@[simp] theorem writeReg_flagN (s : State) (n : BitVec 4) (v : Word) : (writeReg s n v).flagN = s.flagN := rfl
@[simp] theorem writeReg_flagZ (s : State) (n : BitVec 4) (v : Word) : (writeReg s n v).flagZ = s.flagZ := rfl
@[simp] theorem writeReg_flagC (s : State) (n : BitVec 4) (v : Word) : (writeReg s n v).flagC = s.flagC := rfl
@[simp] theorem writeReg_flagV (s : State) (n : BitVec 4) (v : Word) : (writeReg s n v).flagV = s.flagV := rfl
@[simp] theorem writeReg_itConds (s : State) (n : BitVec 4) (v : Word) : (writeReg s n v).itConds = s.itConds := rfl
@[simp] theorem writeReg_dregs (s : State) (n : BitVec 4) (v : Word) : (writeReg s n v).dregs = s.dregs := rfl
@[simp] theorem writeReg_bigEndian (s : State) (n : BitVec 4) (v : Word) : (writeReg s n v).bigEndian = s.bigEndian := rfl
@[simp] theorem writeReg_dit (s : State) (n : BitVec 4) (v : Word) : (writeReg s n v).dit = s.dit := rfl
@[simp] theorem writeReg_enable (s : State) (n : BitVec 4) (v : Word) : (writeReg s n v).enable = s.enable := rfl
@[simp] theorem writeReg_fpGrant (s : State) (n : BitVec 4) (v : Word) : (writeReg s n v).fpGrant = s.fpGrant := rfl
@[simp] theorem writeReg_intMasks (s : State) (n : BitVec 4) (v : Word) : (writeReg s n v).intMasks = s.intMasks := rfl
@[simp] theorem writeReg_admitted (s : State) (n : BitVec 4) (v : Word) : (writeReg s n v).admitted = s.admitted := rfl
@[simp] theorem writeReg_cuRegs0 (s : State) (n : BitVec 4) (v : Word) : (writeReg s n v).cuRegs0 = s.cuRegs0 := rfl
@[simp] theorem writeReg_cuRange (s : State) (n : BitVec 4) (v : Word) : (writeReg s n v).cuRange = s.cuRange := rfl
@[simp] theorem writeReg_mem (s : State) (n : BitVec 4) (v : Word) : (writeReg s n v).mem = s.mem := rfl
@[simp] theorem writeReg_draws (s : State) (n : BitVec 4) (v : Word) : (writeReg s n v).draws = s.draws := rfl

/-! ### writeD -/

@[simp] theorem writeD_regs (s : State) (i : Nat) (v : DWord) : (writeD s i v).regs = s.regs := rfl
@[simp] theorem writeD_pc (s : State) (i : Nat) (v : DWord) : (writeD s i v).pc = s.pc := rfl
@[simp] theorem writeD_iset (s : State) (i : Nat) (v : DWord) : (writeD s i v).iset = s.iset := rfl
@[simp] theorem writeD_flagN (s : State) (i : Nat) (v : DWord) : (writeD s i v).flagN = s.flagN := rfl
@[simp] theorem writeD_flagZ (s : State) (i : Nat) (v : DWord) : (writeD s i v).flagZ = s.flagZ := rfl
@[simp] theorem writeD_flagC (s : State) (i : Nat) (v : DWord) : (writeD s i v).flagC = s.flagC := rfl
@[simp] theorem writeD_flagV (s : State) (i : Nat) (v : DWord) : (writeD s i v).flagV = s.flagV := rfl
@[simp] theorem writeD_itConds (s : State) (i : Nat) (v : DWord) : (writeD s i v).itConds = s.itConds := rfl
@[simp] theorem writeD_dregs (s : State) (i : Nat) (v : DWord) : (writeD s i v).dregs = s.dregs.setIfInBounds i v := rfl
@[simp] theorem writeD_bigEndian (s : State) (i : Nat) (v : DWord) : (writeD s i v).bigEndian = s.bigEndian := rfl
@[simp] theorem writeD_dit (s : State) (i : Nat) (v : DWord) : (writeD s i v).dit = s.dit := rfl
@[simp] theorem writeD_enable (s : State) (i : Nat) (v : DWord) : (writeD s i v).enable = s.enable := rfl
@[simp] theorem writeD_fpGrant (s : State) (i : Nat) (v : DWord) : (writeD s i v).fpGrant = s.fpGrant := rfl
@[simp] theorem writeD_intMasks (s : State) (i : Nat) (v : DWord) : (writeD s i v).intMasks = s.intMasks := rfl
@[simp] theorem writeD_admitted (s : State) (i : Nat) (v : DWord) : (writeD s i v).admitted = s.admitted := rfl
@[simp] theorem writeD_cuRegs0 (s : State) (i : Nat) (v : DWord) : (writeD s i v).cuRegs0 = s.cuRegs0 := rfl
@[simp] theorem writeD_cuRange (s : State) (i : Nat) (v : DWord) : (writeD s i v).cuRange = s.cuRange := rfl
@[simp] theorem writeD_mem (s : State) (i : Nat) (v : DWord) : (writeD s i v).mem = s.mem := rfl
@[simp] theorem writeD_draws (s : State) (i : Nat) (v : DWord) : (writeD s i v).draws = s.draws := rfl

/-! ### writeS -/

@[simp] theorem writeS_regs (s : State) (j : Nat) (v : Word) : (writeS s j v).regs = s.regs := rfl
@[simp] theorem writeS_pc (s : State) (j : Nat) (v : Word) : (writeS s j v).pc = s.pc := rfl
@[simp] theorem writeS_iset (s : State) (j : Nat) (v : Word) : (writeS s j v).iset = s.iset := rfl
@[simp] theorem writeS_flagN (s : State) (j : Nat) (v : Word) : (writeS s j v).flagN = s.flagN := rfl
@[simp] theorem writeS_flagZ (s : State) (j : Nat) (v : Word) : (writeS s j v).flagZ = s.flagZ := rfl
@[simp] theorem writeS_flagC (s : State) (j : Nat) (v : Word) : (writeS s j v).flagC = s.flagC := rfl
@[simp] theorem writeS_flagV (s : State) (j : Nat) (v : Word) : (writeS s j v).flagV = s.flagV := rfl
@[simp] theorem writeS_itConds (s : State) (j : Nat) (v : Word) : (writeS s j v).itConds = s.itConds := rfl
@[simp] theorem writeS_bigEndian (s : State) (j : Nat) (v : Word) : (writeS s j v).bigEndian = s.bigEndian := rfl
@[simp] theorem writeS_dit (s : State) (j : Nat) (v : Word) : (writeS s j v).dit = s.dit := rfl
@[simp] theorem writeS_enable (s : State) (j : Nat) (v : Word) : (writeS s j v).enable = s.enable := rfl
@[simp] theorem writeS_fpGrant (s : State) (j : Nat) (v : Word) : (writeS s j v).fpGrant = s.fpGrant := rfl
@[simp] theorem writeS_intMasks (s : State) (j : Nat) (v : Word) : (writeS s j v).intMasks = s.intMasks := rfl
@[simp] theorem writeS_admitted (s : State) (j : Nat) (v : Word) : (writeS s j v).admitted = s.admitted := rfl
@[simp] theorem writeS_cuRegs0 (s : State) (j : Nat) (v : Word) : (writeS s j v).cuRegs0 = s.cuRegs0 := rfl
@[simp] theorem writeS_cuRange (s : State) (j : Nat) (v : Word) : (writeS s j v).cuRange = s.cuRange := rfl
@[simp] theorem writeS_mem (s : State) (j : Nat) (v : Word) : (writeS s j v).mem = s.mem := rfl
@[simp] theorem writeS_draws (s : State) (j : Nat) (v : Word) : (writeS s j v).draws = s.draws := rfl

/-! ### drawD -/

@[simp] theorem drawD_regs (s : State) (i : Nat) : (drawD s i).regs = s.regs := rfl
@[simp] theorem drawD_pc (s : State) (i : Nat) : (drawD s i).pc = s.pc := rfl
@[simp] theorem drawD_iset (s : State) (i : Nat) : (drawD s i).iset = s.iset := rfl
@[simp] theorem drawD_flagN (s : State) (i : Nat) : (drawD s i).flagN = s.flagN := rfl
@[simp] theorem drawD_flagZ (s : State) (i : Nat) : (drawD s i).flagZ = s.flagZ := rfl
@[simp] theorem drawD_flagC (s : State) (i : Nat) : (drawD s i).flagC = s.flagC := rfl
@[simp] theorem drawD_flagV (s : State) (i : Nat) : (drawD s i).flagV = s.flagV := rfl
@[simp] theorem drawD_itConds (s : State) (i : Nat) : (drawD s i).itConds = s.itConds := rfl
@[simp] theorem drawD_dregs (s : State) (i : Nat) : (drawD s i).dregs = (writeD s i (Config.draw64 s.draws)).dregs := rfl
@[simp] theorem drawD_bigEndian (s : State) (i : Nat) : (drawD s i).bigEndian = s.bigEndian := rfl
@[simp] theorem drawD_dit (s : State) (i : Nat) : (drawD s i).dit = s.dit := rfl
@[simp] theorem drawD_enable (s : State) (i : Nat) : (drawD s i).enable = s.enable := rfl
@[simp] theorem drawD_fpGrant (s : State) (i : Nat) : (drawD s i).fpGrant = s.fpGrant := rfl
@[simp] theorem drawD_intMasks (s : State) (i : Nat) : (drawD s i).intMasks = s.intMasks := rfl
@[simp] theorem drawD_admitted (s : State) (i : Nat) : (drawD s i).admitted = s.admitted := rfl
@[simp] theorem drawD_cuRegs0 (s : State) (i : Nat) : (drawD s i).cuRegs0 = s.cuRegs0 := rfl
@[simp] theorem drawD_cuRange (s : State) (i : Nat) : (drawD s i).cuRange = s.cuRange := rfl
@[simp] theorem drawD_mem (s : State) (i : Nat) : (drawD s i).mem = s.mem := rfl
@[simp] theorem drawD_draws (s : State) (i : Nat) : (drawD s i).draws = s.draws + 1 := rfl

/-! ### drawS -/

@[simp] theorem drawS_regs (s : State) (j : Nat) : (drawS s j).regs = s.regs := rfl
@[simp] theorem drawS_pc (s : State) (j : Nat) : (drawS s j).pc = s.pc := rfl
@[simp] theorem drawS_iset (s : State) (j : Nat) : (drawS s j).iset = s.iset := rfl
@[simp] theorem drawS_flagN (s : State) (j : Nat) : (drawS s j).flagN = s.flagN := rfl
@[simp] theorem drawS_flagZ (s : State) (j : Nat) : (drawS s j).flagZ = s.flagZ := rfl
@[simp] theorem drawS_flagC (s : State) (j : Nat) : (drawS s j).flagC = s.flagC := rfl
@[simp] theorem drawS_flagV (s : State) (j : Nat) : (drawS s j).flagV = s.flagV := rfl
@[simp] theorem drawS_itConds (s : State) (j : Nat) : (drawS s j).itConds = s.itConds := rfl
@[simp] theorem drawS_dregs (s : State) (j : Nat) : (drawS s j).dregs = (writeS s j (Config.draw32 s.draws)).dregs := rfl
@[simp] theorem drawS_bigEndian (s : State) (j : Nat) : (drawS s j).bigEndian = s.bigEndian := rfl
@[simp] theorem drawS_dit (s : State) (j : Nat) : (drawS s j).dit = s.dit := rfl
@[simp] theorem drawS_enable (s : State) (j : Nat) : (drawS s j).enable = s.enable := rfl
@[simp] theorem drawS_fpGrant (s : State) (j : Nat) : (drawS s j).fpGrant = s.fpGrant := rfl
@[simp] theorem drawS_intMasks (s : State) (j : Nat) : (drawS s j).intMasks = s.intMasks := rfl
@[simp] theorem drawS_admitted (s : State) (j : Nat) : (drawS s j).admitted = s.admitted := rfl
@[simp] theorem drawS_cuRegs0 (s : State) (j : Nat) : (drawS s j).cuRegs0 = s.cuRegs0 := rfl
@[simp] theorem drawS_cuRange (s : State) (j : Nat) : (drawS s j).cuRange = s.cuRange := rfl
@[simp] theorem drawS_mem (s : State) (j : Nat) : (drawS s j).mem = s.mem := rfl
@[simp] theorem drawS_draws (s : State) (j : Nat) : (drawS s j).draws = s.draws + 1 := rfl

/-! ### drawReg -/

@[simp] theorem drawReg_regs (s : State) (n : BitVec 4) : (drawReg s n).regs = (writeReg s n (Config.draw32 s.draws)).regs := rfl
@[simp] theorem drawReg_pc (s : State) (n : BitVec 4) : (drawReg s n).pc = s.pc := rfl
@[simp] theorem drawReg_iset (s : State) (n : BitVec 4) : (drawReg s n).iset = s.iset := rfl
@[simp] theorem drawReg_flagN (s : State) (n : BitVec 4) : (drawReg s n).flagN = s.flagN := rfl
@[simp] theorem drawReg_flagZ (s : State) (n : BitVec 4) : (drawReg s n).flagZ = s.flagZ := rfl
@[simp] theorem drawReg_flagC (s : State) (n : BitVec 4) : (drawReg s n).flagC = s.flagC := rfl
@[simp] theorem drawReg_flagV (s : State) (n : BitVec 4) : (drawReg s n).flagV = s.flagV := rfl
@[simp] theorem drawReg_itConds (s : State) (n : BitVec 4) : (drawReg s n).itConds = s.itConds := rfl
@[simp] theorem drawReg_dregs (s : State) (n : BitVec 4) : (drawReg s n).dregs = s.dregs := rfl
@[simp] theorem drawReg_bigEndian (s : State) (n : BitVec 4) : (drawReg s n).bigEndian = s.bigEndian := rfl
@[simp] theorem drawReg_dit (s : State) (n : BitVec 4) : (drawReg s n).dit = s.dit := rfl
@[simp] theorem drawReg_enable (s : State) (n : BitVec 4) : (drawReg s n).enable = s.enable := rfl
@[simp] theorem drawReg_fpGrant (s : State) (n : BitVec 4) : (drawReg s n).fpGrant = s.fpGrant := rfl
@[simp] theorem drawReg_intMasks (s : State) (n : BitVec 4) : (drawReg s n).intMasks = s.intMasks := rfl
@[simp] theorem drawReg_admitted (s : State) (n : BitVec 4) : (drawReg s n).admitted = s.admitted := rfl
@[simp] theorem drawReg_cuRegs0 (s : State) (n : BitVec 4) : (drawReg s n).cuRegs0 = s.cuRegs0 := rfl
@[simp] theorem drawReg_cuRange (s : State) (n : BitVec 4) : (drawReg s n).cuRange = s.cuRange := rfl
@[simp] theorem drawReg_mem (s : State) (n : BitVec 4) : (drawReg s n).mem = s.mem := rfl
@[simp] theorem drawReg_draws (s : State) (n : BitVec 4) : (drawReg s n).draws = s.draws + 1 := rfl

/-! ### retire -/

@[simp] theorem retire_regs (k : InstrSet) (s : State) : (retire k s).regs = s.regs := by cases k <;> rfl
@[simp] theorem retire_pc (k : InstrSet) (s : State) : (retire k s).pc = s.pc + 4#32 := by cases k <;> rfl
@[simp] theorem retire_iset (k : InstrSet) (s : State) : (retire k s).iset = s.iset := by cases k <;> rfl
@[simp] theorem retire_flagN (k : InstrSet) (s : State) : (retire k s).flagN = s.flagN := by cases k <;> rfl
@[simp] theorem retire_flagZ (k : InstrSet) (s : State) : (retire k s).flagZ = s.flagZ := by cases k <;> rfl
@[simp] theorem retire_flagC (k : InstrSet) (s : State) : (retire k s).flagC = s.flagC := by cases k <;> rfl
@[simp] theorem retire_flagV (k : InstrSet) (s : State) : (retire k s).flagV = s.flagV := by cases k <;> rfl
@[simp] theorem retire_a32_itConds (s : State) : (retire .a32 s).itConds = s.itConds := rfl
@[simp] theorem retire_t32_itConds (s : State) : (retire .t32 s).itConds = s.itConds.tail := rfl
@[simp] theorem retire_dregs (k : InstrSet) (s : State) : (retire k s).dregs = s.dregs := by cases k <;> rfl
@[simp] theorem retire_bigEndian (k : InstrSet) (s : State) : (retire k s).bigEndian = s.bigEndian := by cases k <;> rfl
@[simp] theorem retire_dit (k : InstrSet) (s : State) : (retire k s).dit = s.dit := by cases k <;> rfl
@[simp] theorem retire_enable (k : InstrSet) (s : State) : (retire k s).enable = s.enable := by cases k <;> rfl
@[simp] theorem retire_fpGrant (k : InstrSet) (s : State) : (retire k s).fpGrant = s.fpGrant := by cases k <;> rfl
@[simp] theorem retire_intMasks (k : InstrSet) (s : State) : (retire k s).intMasks = s.intMasks := by cases k <;> rfl
@[simp] theorem retire_admitted (k : InstrSet) (s : State) : (retire k s).admitted = s.admitted := by cases k <;> rfl
@[simp] theorem retire_cuRegs0 (k : InstrSet) (s : State) : (retire k s).cuRegs0 = s.cuRegs0 := by cases k <;> rfl
@[simp] theorem retire_cuRange (k : InstrSet) (s : State) : (retire k s).cuRange = s.cuRange := by cases k <;> rfl
@[simp] theorem retire_mem (k : InstrSet) (s : State) : (retire k s).mem = s.mem := by cases k <;> rfl
@[simp] theorem retire_draws (k : InstrSet) (s : State) : (retire k s).draws = s.draws := by cases k <;> rfl

/-- What the end of an instruction changes. -/
theorem retire_eq (k : InstrSet) (s : State) :
    retire k s = { s with
      pc := s.pc + 4#32, itConds := if k = .t32 then s.itConds.tail else s.itConds } := by
  cases k <;> rfl

end Sys2Proof.Machine
end

