-- ==== Sys2Proof/Laws/Registers.lean ====
section
/-! SUPPORT. What a read of a register gives after each named write. -/

namespace Sys2Proof.Machine

/-- A `D` register after a write of a `D` register. -/
theorem readD_writeD (s : State) (i : Nat) (v : DWord) (j : Nat) :
    readD (writeD s i v) j = if i = j ∧ i < 32 then v else readD s j := by
  simp only [readD, writeD_dregs, Vector.getElem?_setIfInBounds]
  by_cases h : i = j
  · subst h
    by_cases hi : i < 32 <;> simp [hi]
  · simp [h]

/-- A `D` register above 31 reads 0: there is none. -/
theorem readD_ge (s : State) (i : Nat) (h : 32 ≤ i) : readD s i = 0#64 := by
  simp [readD, Vector.getElem?_eq_none h]

/-- The low half of a pair of words. -/
theorem lowHalf_append (hi lo : Word) : (hi ++ lo).extractLsb' 0 32 = lo := by
  ext i hi'
  simp only [BitVec.getElem_extractLsb', BitVec.getLsbD_append]
  simp [hi', BitVec.getLsbD_eq_getElem]

/-- The high half of a pair of words. -/
theorem highHalf_append (hi lo : Word) : (hi ++ lo).extractLsb' 32 32 = hi := by
  ext i hi'
  simp only [BitVec.getElem_extractLsb', BitVec.getLsbD_append]
  simp [BitVec.getLsbD_eq_getElem, hi']

/-- An `S` register after a write of an `S` register. -/
theorem readS_writeS (s : State) (j : Nat) (v : Word) (i : Nat) (hj : j < 32) :
    readS (writeS s j v) i = if i = j then v else readS s i := by
  have hd : ∀ x, readD (writeD s (j / 2) x) (i / 2) = if j / 2 = i / 2 then x else readD s (i / 2) := fun x => by
    rw [readD_writeD]
    by_cases h : j / 2 = i / 2
    · rw [if_pos ⟨h, by omega⟩, if_pos h]
    · rw [if_neg (fun c => h c.1), if_neg h]
  simp only [readS, writeS, hd]
  by_cases h : j / 2 = i / 2
  · rw [if_pos h, h]
    rcases Nat.mod_two_eq_zero_or_one i with hi | hi <;> rcases Nat.mod_two_eq_zero_or_one j with hj2 | hj2 <;>
      simp only [hi, hj2, if_true, if_false, one_ne_zero, lowHalf_append, highHalf_append]
    · rw [if_pos (by omega)]
    · rw [if_neg (by omega)]
    · rw [if_neg (by omega)]
    · rw [if_pos (by omega)]
  · have hij : ¬ i = j := fun c => h (by rw [c])
    rw [if_neg h, if_neg hij]

/-- `D[16..31]` have no `S` view. -/
theorem readD_writeS_high (s : State) (j : Nat) (v : Word) (i : Nat) (hj : j < 32) (hi : 16 ≤ i) :
    readD (writeS s j v) i = readD s i := by
  rw [writeS, readD_writeD, if_neg (by omega)]

/-- A general-purpose register after a write of one that is not the PC. -/
theorem readReg_writeReg (s : State) (n : BitVec 4) (v : Word) (i : BitVec 4) (hn : n ≠ 15#4) :
    readReg (writeReg s n v) i = if i = n then v else readReg s i := by
  have hlt : n.toNat < 15 := by
    have h1 := n.isLt
    have h2 : n.toNat ≠ 15 := fun h => hn (BitVec.eq_of_toNat_eq h)
    omega
  by_cases hi : i = n
  · subst hi
    simp [readReg, hn, hlt]
  · rw [if_neg hi]
    by_cases h15 : i = 15#4
    · simp [readReg, h15]
    · have : ¬ n.toNat = i.toNat := fun h => hi (BitVec.eq_of_toNat_eq h.symm)
      simp [readReg, h15, this]

/-- A register that is not the PC depends on the register file only. -/
theorem readReg_congr (s t : State) (n : BitVec 4) (hn : n ≠ 15#4) (h : t.regs = s.regs) : readReg t n = readReg s n := by
  simp [readReg, hn, h]

/-- A `D` register depends on the register file only. -/
theorem readD_congr (s t : State) (i : Nat) (h : t.dregs = s.dregs) : readD t i = readD s i := by
  simp [readD, h]

/-- An `S` register depends on the register file only. -/
theorem readS_congr (s t : State) (i : Nat) (h : t.dregs = s.dregs) : readS t i = readS s i := by
  simp [readS, readD_congr s t _ h]

end Sys2Proof.Machine
end

