-- ==== Sys2Proof/Laws/Load.lean ====
section
/-! SUPPORT. What the loops, the draws and the shared operations of Machine/Load.lean can do, one lemma each. -/

namespace Sys2Proof.Machine

/-! ## Reads -/

/-- A read depends on memory, the admitted words and the endianness only. -/
theorem memRead_congr (s t : State) (a : Word) (hm : t.mem = s.mem) (ha : t.admitted = s.admitted)
    (he : t.bigEndian = s.bigEndian) : memRead t a = memRead s a := by
  simp [memRead, memAdmit, wordAt, readByte, hm, ha, he]

@[simp] theorem memRead_writeS (s : State) (j : Nat) (v a : Word) : memRead (writeS s j v) a = memRead s a :=
  memRead_congr _ _ _ rfl rfl rfl

@[simp] theorem memRead_writeD (s : State) (i : Nat) (v : DWord) (a : Word) : memRead (writeD s i v) a = memRead s a :=
  memRead_congr _ _ _ rfl rfl rfl

/-- A read that is allowed gives the word. -/
theorem memRead_ok (s : State) (a : Word) (h1 : wordAligned a = true) (h2 : memAdmit s a = true) :
    memRead s a = .ok (wordAt s a) := by
  simp [memRead, h1, h2]

/-- A read of a word that is not admitted fails. -/
theorem memRead_other (s : State) (a : Word) (h1 : wordAligned a = true) (h2 : memAdmit s a = false) :
    memRead s a = .error ⟨.other, a⟩ := by
  simp [memRead, h1, h2]

/-- A failed read reports the address read. -/
theorem memRead_error (s : State) (a : Word) (e : Abort) (h : memRead s a = .error e) : e.addr = a := by
  unfold memRead at h
  split at h
  · cases h; rfl
  · split at h <;> cases h
    rfl

/-- The abort of a read depends on the alignment and the admitted words only. -/
theorem readAbort_congr (s t : State) (a : Word) (h : memAdmit t a = memAdmit s a) : readAbort t a = readAbort s a := by
  unfold readAbort memRead
  rw [h]
  cases wordAligned a <;> cases memAdmit s a <;> rfl

/-- `BaseWritten` (70_reset_and_hazards.md R120) holds in every state. -/
theorem baseWritten (s : State) (n : BitVec 4) : BaseWritten s n := ⟨_, rfl⟩

/-- Word alignment depends on the address modulo 4. -/
theorem wordAligned_iff (a : Word) : wordAligned a = true ↔ a.toNat % 4 = 0 := by
  simp [wordAligned, ← BitVec.toNat_inj]

/-- Adding a multiple of 4 keeps alignment. -/
theorem wordAligned_add (a : Word) (j : Nat) : wordAligned (a + BitVec.ofNat 32 (4 * j)) = wordAligned a := by
  rw [Bool.eq_iff_iff, wordAligned_iff, wordAligned_iff, BitVec.toNat_add, BitVec.toNat_ofNat]
  omega

/-- Offsets add up. -/
theorem word_add_ofNat (a : Word) (i j : Nat) :
    a + BitVec.ofNat 32 i + BitVec.ofNat 32 j = a + BitVec.ofNat 32 (i + j) := by
  rw [BitVec.add_assoc, BitVec.ofNat_add]

/-! ## The loops -/

/-- A loop that completes changes the `S` view only. -/
theorem loadListS_frame (count d : Nat) (a : Word) (s s' : State) (h : loadListS count d a s = .ok s') :
    s' = { s with dregs := s'.dregs } := by
  induction count generalizing d a s with
  | zero => cases h; rfl
  | succ count ih =>
    simp only [loadListS] at h
    split at h
    · cases h
    · exact (ih _ _ _ h).trans rfl

/-- A loop that completes changes `D` registers only. -/
theorem loadListD_frame (count d : Nat) (a : Word) (s s' : State) (h : loadListD count d a s = .ok s') :
    s' = { s with dregs := s'.dregs } := by
  induction count generalizing d a s with
  | zero => cases h; rfl
  | succ count ih =>
    simp only [loadListD] at h
    split at h
    · cases h
    · split at h
      · cases h
      · exact (ih _ _ _ h).trans rfl

/-- An `S` list that loads keeps every register outside it. -/
theorem loadListS_keeps (count d : Nat) (a : Word) (s s' : State) (hd : d + count ≤ 32)
    (h : loadListS count d a s = .ok s') :
    (∀ j, (j < d ∨ d + count ≤ j) → readS s' j = readS s j) ∧ ∀ i, 16 ≤ i → readD s' i = readD s i := by
  induction count generalizing d a s with
  | zero => cases h; exact ⟨fun _ _ => rfl, fun _ _ => rfl⟩
  | succ count ih =>
    simp only [loadListS] at h
    split at h
    · cases h
    · obtain ⟨h1, h2⟩ := ih (d + 1) _ _ (by omega) h
      exact ⟨fun j hj => by rw [h1 j (by omega), readS_writeS _ _ _ _ (by omega), if_neg (by omega)],
        fun i hi => by rw [h2 i hi, readD_writeS_high _ _ _ _ (by omega) hi]⟩

/-- A `D` list that loads keeps every register outside it. -/
theorem loadListD_keeps (count d : Nat) (a : Word) (s s' : State) (h : loadListD count d a s = .ok s') (j : Nat)
    (hj : j < d ∨ d + count ≤ j) : readD s' j = readD s j := by
  induction count generalizing d a s with
  | zero => cases h; rfl
  | succ count ih =>
    simp only [loadListD] at h
    split at h
    · cases h
    · split at h
      · cases h
      · rw [ih (d + 1) _ _ h (by omega), readD_writeD, if_neg (by omega)]

/-- The loop of an `S` list whose reads all succeed: every register of the list holds its word, the others are kept. -/
theorem loadListS_spec (count d : Nat) (a : Word) (s : State) (f : Nat → Word) (hd : d + count ≤ 32)
    (hr : ∀ r < count, memRead s (a + BitVec.ofNat 32 (4 * r)) = .ok (f r)) :
    ∃ s', loadListS count d a s = .ok s' ∧ (∀ r < count, readS s' (d + r) = f r) ∧
      (∀ j, (j < d ∨ d + count ≤ j) → readS s' j = readS s j) ∧ ∀ i, 16 ≤ i → readD s' i = readD s i := by
  induction count generalizing d a s f with
  | zero => exact ⟨s, rfl, by simp, by simp, by simp⟩
  | succ count ih =>
    have h0 : memRead s a = .ok (f 0) := by simpa using hr 0 (by omega)
    obtain ⟨s', h1, h2, h3, h4⟩ := ih (d + 1) (a + 4#32) (writeS s d (f 0)) (fun r => f (r + 1)) (by omega)
      (fun r hrc => by
        have := hr (r + 1) (by omega)
        rw [memRead_writeS, show (4#32 : Word) = BitVec.ofNat 32 4 from rfl, word_add_ofNat,
          show 4 + 4 * r = 4 * (r + 1) by omega, this])
    refine ⟨s', ?_, ?_, ?_, ?_⟩
    · simpa [loadListS, h0] using h1
    · intro r hrc
      cases r with
      | zero => rw [h3 _ (by omega), Nat.add_zero, readS_writeS _ _ _ _ (by omega), if_pos rfl]
      | succ r => simpa [show d + (r + 1) = d + 1 + r by omega] using h2 r (by omega)
    · intro j hj
      rw [h3 j (by omega), readS_writeS _ _ _ _ (by omega), if_neg (by omega)]
    · intro i hi
      rw [h4 i hi, readD_writeS_high _ _ _ _ (by omega) hi]

/-- The loop of a `D` list whose reads all succeed. -/
theorem loadListD_spec (count d : Nat) (a : Word) (s : State) (f : Nat → Word) (hd : d + count ≤ 32)
    (hr : ∀ r < 2 * count, memRead s (a + BitVec.ofNat 32 (4 * r)) = .ok (f r)) :
    ∃ s', loadListD count d a s = .ok s' ∧
      (∀ r < count, readD s' (d + r) = combineWords s.bigEndian (f (2 * r)) (f (2 * r + 1))) ∧
      ∀ j, (j < d ∨ d + count ≤ j) → readD s' j = readD s j := by
  induction count generalizing d a s f with
  | zero => exact ⟨s, rfl, by simp, by simp⟩
  | succ count ih =>
    have h0 : memRead s a = .ok (f 0) := by simpa using hr 0 (by omega)
    have h0' : memRead s (a + 4#32) = .ok (f 1) := by simpa using hr 1 (by omega)
    obtain ⟨s', h1, h2, h3⟩ := ih (d + 1) (a + 8#32) (writeD s d (combineWords s.bigEndian (f 0) (f 1)))
      (fun r => f (r + 2)) (by omega)
      (fun r hrc => by
        have := hr (r + 2) (by omega)
        rw [memRead_writeD, show (8#32 : Word) = BitVec.ofNat 32 8 from rfl, word_add_ofNat,
          show 8 + 4 * r = 4 * (r + 2) by omega, this])
    refine ⟨s', ?_, ?_, ?_⟩
    · simpa [loadListD, h0, h0'] using h1
    · intro r hrc
      cases r with
      | zero => rw [h3 _ (by omega), Nat.add_zero, readD_writeD, if_pos ⟨rfl, by omega⟩]
      | succ r => simpa [show d + (r + 1) = d + 1 + r by omega, Nat.mul_add] using h2 r (by omega)
    · intro j hj
      rw [h3 j (by omega), readD_writeD, if_neg (by omega)]

/-- The loop of an `S` list stops at the first read that fails. -/
theorem loadListS_error (count d : Nat) (a : Word) (s : State) (j : Nat) (e : Abort) (hj : j < count)
    (hok : ∀ r < j, ∃ v, memRead s (a + BitVec.ofNat 32 (4 * r)) = .ok v)
    (he : memRead s (a + BitVec.ofNat 32 (4 * j)) = .error e) : loadListS count d a s = .error e := by
  induction count generalizing d a s j with
  | zero => omega
  | succ count ih =>
    cases j with
    | zero =>
      have : memRead s a = .error e := by simpa using he
      simp [loadListS, this]
    | succ j =>
      obtain ⟨v, hv⟩ := hok 0 (by omega)
      have hv : memRead s a = .ok v := by simpa using hv
      simp only [loadListS, hv]
      have shift : ∀ r, a + 4#32 + BitVec.ofNat 32 (4 * r) = a + BitVec.ofNat 32 (4 * (r + 1)) := fun r => by
        rw [show (4#32 : Word) = BitVec.ofNat 32 4 from rfl, word_add_ofNat, show 4 + 4 * r = 4 * (r + 1) by omega]
      refine ih _ _ _ j (by omega) (fun r hr => ?_) ?_
      · rw [memRead_writeS, shift]; exact hok (r + 1) (by omega)
      · rw [memRead_writeS, shift]; exact he

/-- The loop of a `D` list stops at the first read that fails. -/
theorem loadListD_error (count d : Nat) (a : Word) (s : State) (j : Nat) (e : Abort) (hj : j < 2 * count)
    (hok : ∀ r < j, ∃ v, memRead s (a + BitVec.ofNat 32 (4 * r)) = .ok v)
    (he : memRead s (a + BitVec.ofNat 32 (4 * j)) = .error e) : loadListD count d a s = .error e := by
  induction count generalizing d a s j with
  | zero => omega
  | succ count ih =>
    match j, hj, hok, he with
    | 0, _, _, he =>
      have : memRead s a = .error e := by simpa using he
      simp [loadListD, this]
    | 1, _, hok, he =>
      obtain ⟨v, hv⟩ := hok 0 (by omega)
      have hv : memRead s a = .ok v := by simpa using hv
      have : memRead s (a + 4#32) = .error e := by simpa using he
      simp [loadListD, hv, this]
    | j + 2, hj, hok, he =>
      obtain ⟨v, hv⟩ := hok 0 (by omega)
      have hv : memRead s a = .ok v := by simpa using hv
      obtain ⟨v', hv'⟩ := hok 1 (by omega)
      have hv' : memRead s (a + 4#32) = .ok v' := by simpa using hv'
      simp only [loadListD, hv, hv']
      have shift : ∀ r, a + 8#32 + BitVec.ofNat 32 (4 * r) = a + BitVec.ofNat 32 (4 * (r + 2)) := fun r => by
        rw [show (8#32 : Word) = BitVec.ofNat 32 8 from rfl, word_add_ofNat, show 8 + 4 * r = 4 * (r + 2) by omega]
      refine ih _ _ _ j (by omega) (fun r hr => ?_) ?_
      · rw [memRead_writeD, shift]; exact hok (r + 2) (by omega)
      · rw [memRead_writeD, shift]; exact he

/-! ## The draws -/

/-- Draws over an `S` list change the register file and the counter only. -/
theorem drawListS_frame (count d : Nat) (s : State) :
    drawListS count d s = { s with
      dregs := (drawListS count d s).dregs, draws := (drawListS count d s).draws } := by
  induction count generalizing d s with
  | zero => rfl
  | succ count ih => exact ih (d + 1) (drawS s d)

/-- Draws over a `D` list change the register file and the counter only. -/
theorem drawListD_frame (count d : Nat) (s : State) :
    drawListD count d s = { s with
      dregs := (drawListD count d s).dregs, draws := (drawListD count d s).draws } := by
  induction count generalizing d s with
  | zero => rfl
  | succ count ih => exact ih (d + 1) (drawD s d)

/-- Each register of an `S` list holds a draw of its own, the others are kept. -/
theorem drawListS_spec (count d : Nat) (s : State) (hd : d + count ≤ 32) :
    (∀ r < count, readS (drawListS count d s) (d + r) = Config.draw32 (s.draws + r)) ∧
    (∀ j, (j < d ∨ d + count ≤ j) → readS (drawListS count d s) j = readS s j) ∧
    (∀ i, 16 ≤ i → readD (drawListS count d s) i = readD s i) ∧ (drawListS count d s).draws = s.draws + count := by
  induction count generalizing d s with
  | zero => exact ⟨by simp, by simp [drawListS], by simp [drawListS], rfl⟩
  | succ count ih =>
    obtain ⟨h1, h2, h3, h4⟩ := ih (d + 1) (drawS s d) (by omega)
    have hw : ∀ j, readS (drawS s d) j = if j = d then Config.draw32 s.draws else readS s j :=
      fun j => readS_writeS s d _ j (by omega)
    refine ⟨fun r hr => ?_, fun j hj => ?_, fun i hi => ?_, ?_⟩
    · cases r with
      | zero =>
        rw [drawListS, h2 _ (by omega), hw, if_pos (by omega)]; rfl
      | succ r =>
        have := h1 r (by omega)
        rw [drawListS, show d + (r + 1) = d + 1 + r by omega, this, drawS_draws]
        congr 1; omega
    · rw [drawListS, h2 j (by omega), hw, if_neg (by omega)]
    · rw [drawListS, h3 i hi]
      exact readD_writeS_high s d _ i (by omega) hi
    · rw [drawListS, h4, drawS_draws]; omega

/-- Each register of a `D` list holds a draw of its own, the others are kept. -/
theorem drawListD_spec (count d : Nat) (s : State) (hd : d + count ≤ 32) :
    (∀ r < count, readD (drawListD count d s) (d + r) = Config.draw64 (s.draws + r)) ∧
    (∀ j, (j < d ∨ d + count ≤ j) → readD (drawListD count d s) j = readD s j) ∧
    (drawListD count d s).draws = s.draws + count := by
  induction count generalizing d s with
  | zero => exact ⟨by simp, by simp [drawListD], rfl⟩
  | succ count ih =>
    obtain ⟨h1, h2, h3⟩ := ih (d + 1) (drawD s d) (by omega)
    have hw : ∀ j, readD (drawD s d) j = if d = j ∧ d < 32 then Config.draw64 s.draws else readD s j :=
      fun j => readD_writeD s d _ j
    refine ⟨fun r hr => ?_, fun j hj => ?_, ?_⟩
    · cases r with
      | zero =>
        rw [drawListD, h2 _ (by omega), hw, if_pos (by omega)]; rfl
      | succ r =>
        have := h1 r (by omega)
        rw [drawListD, show d + (r + 1) = d + 1 + r by omega, this, drawD_draws]
        congr 1; omega
    · rw [drawListD, h2 j (by omega), hw, if_neg (by omega)]
    · rw [drawListD, h3, drawD_draws]; omega

/-! ## The dispatch, by kind of row -/

/-- A VLDM row is the shared operation on its decode values, under its condition. -/
theorem exec_vldm (i : Instr) (t : Transfer) (s : State) (h : i.transfer = some t) :
    exec i s = conditional i.iset i.condSource s (vldm i.iset t s) := by
  cases i <;> first | (cases h; rfl) | cases h

/-- An UNDEFINED row raises, under its condition. -/
theorem exec_undefined (i : Instr) (s : State) (h : i.isUndefined = true) :
    exec i s = conditional i.iset i.condSource s (raise .undefinedInstruction s) := by
  cases i <;> first | rfl | cases h

/-- A redirect row inside the class diagrams is refused by name, under its condition. -/
theorem exec_see (i : Instr) (o : OtherInstr) (s : State) (h : i.redirect = some o) (ho : o ≠ .fldmx) :
    exec i s = conditional i.iset i.condSource s (.refused (.notThisInstruction o)) := by
  cases i <;> first | (cases h; first | rfl | exact absurd rfl ho) | cases h

/-- An FLDM*X row is refused by name. -/
theorem exec_fldmx (i : Instr) (s : State) (h : i.redirect = some .fldmx) :
    exec i s = .refused (.notThisInstruction .fldmx) := by
  cases i <;> first | rfl | cases h

/-- Every row is of one of the four kinds. -/
theorem row_kinds (i : Instr) :
    (∃ t, i.transfer = some t) ∨ i.isUndefined = true ∨ (∃ o, i.redirect = some o ∧ o ≠ .fldmx) ∨
      i.redirect = some .fldmx := by
  cases i <;> simp [Instr.transfer, Instr.isUndefined, Instr.redirect]

/-- What a conditional instruction answers. -/
theorem conditional_cases (k : InstrSet) (src : CondSource) (s : State) (body : Result) :
    (condOk src s = some true ∧ conditional k src s body = body) ∨
    (condOk src s = some false ∧ conditional k src s body = .next (retire k s)) ∨
    (condOk src s = none ∧ conditional k src s body = .refused .noCondition) := by
  unfold conditional
  rcases condOk src s with _ | _ | _ <;> simp

/-- The decode values of a row: `imm32` spans the words of the list, and a list starts at one of the 32 registers. -/
theorem transfer_values (i : Instr) (t : Transfer) (h : i.transfer = some t) :
    t.imm32.toNat = (if t.singleRegs then 4 else 8) * t.regs ∧ t.d < 32 ∧ t.regs < 256 := by
  have hD : ∀ (add wb : Bool) (d : BitVec 1) (rn vd : BitVec 4) (m : BitVec 7), t = transferD add wb d rn vd m →
      t.imm32.toNat = (if t.singleRegs then 4 else 8) * t.regs ∧ t.d < 32 ∧ t.regs < 256 := by
    rintro add wb d rn vd m rfl
    have h1 := (d ++ vd).isLt
    have h2 := m.isLt
    simp only [transferD, imm32Of, imm8OfImm7, firstD, BitVec.toNat_setWidth, BitVec.toNat_append, Nat.shiftLeft_eq,
      BitVec.toNat_ofNat, Nat.zero_mod, Nat.or_zero, Bool.false_eq_true, if_false] at *
    omega
  have hS : ∀ (add wb : Bool) (d : BitVec 1) (rn vd : BitVec 4) (m : BitVec 8), t = transferS add wb d rn vd m →
      t.imm32.toNat = (if t.singleRegs then 4 else 8) * t.regs ∧ t.d < 32 ∧ t.regs < 256 := by
    rintro add wb d rn vd m rfl
    have h1 := (vd ++ d).isLt
    have h2 := m.isLt
    simp only [transferS, imm32Of, firstS, BitVec.toNat_setWidth, BitVec.toNat_append, Nat.shiftLeft_eq,
      BitVec.toNat_ofNat, Nat.zero_mod, Nat.or_zero, if_true] at *
    omega
  cases i <;> simp only [Instr.transfer, Option.some.injEq, reduceCtorEq] at h <;>
    first | exact hD _ _ _ _ _ _ h.symm | exact hS _ _ _ _ _ _ h.symm

/-- The numbers of a `D` list (30_encoding.md R56). -/
theorem transferD_values (add wb : Bool) (d : BitVec 1) (rn vd : BitVec 4) (m : BitVec 7) :
    (transferD add wb d rn vd m).d = 16 * d.toNat + vd.toNat ∧ (transferD add wb d rn vd m).regs = m.toNat ∧
    (transferD add wb d rn vd m).imm32 = BitVec.ofNat 32 (8 * m.toNat) := by
  have h2 := m.isLt
  have h3 := vd.isLt
  refine ⟨?_, ?_, BitVec.eq_of_toNat_eq ?_⟩
  · simp only [transferD, firstD, BitVec.toNat_append]
    rw [← Nat.shiftLeft_add_eq_or_of_lt (by omega), Nat.shiftLeft_eq]
    omega
  · simp only [transferD, imm8OfImm7, BitVec.toNat_append, Nat.shiftLeft_eq]
    simp
  · simp only [transferD, imm32Of, imm8OfImm7, BitVec.toNat_setWidth, BitVec.toNat_append, Nat.shiftLeft_eq,
      BitVec.toNat_ofNat, Nat.zero_mod, Nat.or_zero]
    omega

/-- The numbers of an `S` list (30_encoding.md R57). -/
theorem transferS_values (add wb : Bool) (d : BitVec 1) (rn vd : BitVec 4) (m : BitVec 8) :
    (transferS add wb d rn vd m).d = 2 * vd.toNat + d.toNat ∧ (transferS add wb d rn vd m).regs = m.toNat ∧
    (transferS add wb d rn vd m).imm32 = BitVec.ofNat 32 (4 * m.toNat) := by
  have h1 := d.isLt
  have h2 := m.isLt
  refine ⟨?_, rfl, BitVec.eq_of_toNat_eq ?_⟩
  · simp only [transferS, firstS, BitVec.toNat_append]
    rw [← Nat.shiftLeft_add_eq_or_of_lt (by omega), Nat.shiftLeft_eq]
    omega
  · simp only [transferS, imm32Of, BitVec.toNat_setWidth, BitVec.toNat_append, Nat.shiftLeft_eq, BitVec.toNat_ofNat,
      Nat.zero_mod, Nat.or_zero]
    omega

end Sys2Proof.Machine
end

