-- ==== Sys2Proof/Laws/Exec.lean ====
section
/-! SUPPORT. What the shared operations answer under the launch premises, and what any instruction can answer: one
inversion lemma for the next states and one for the faults. -/

namespace Sys2Proof.Machine

/-! ## The way to the transfer -/

/-- When the checks of 40_vldm.md R85 to R87 pass, an instruction comes to the enable check. -/
theorem exec_checked (i : Instr) (t : Transfer) (s : State) (h : i.transfer = some t) (hc : ChecksPass i t s) :
    exec i s = checkedTransfer i.iset t s := by
  obtain ⟨h1, h2, h3, h4, h5⟩ := hc
  rw [exec_vldm i t s h, conditional, h1]
  have hb : pcBaseBarred t s = false := by
    rw [Bool.eq_false_iff]; intro hb; apply h2; simpa [pcBaseBarred] using hb
  have hl : listTooLong t = false := by
    rw [Bool.eq_false_iff]; intro hl
    simp only [listTooLong, Bool.or_eq_true, Bool.and_eq_true, Bool.not_eq_true', decide_eq_true_eq] at hl
    rcases hl with ⟨a, b⟩ | b
    · have := h4 a; omega
    · omega
  simp [vldm, hb, hl, show t.regs ≠ 0 by omega]

/-- When the register file is enabled as well, it comes to the transfer. -/
theorem exec_enabled (i : Instr) (t : Transfer) (s : State) (h : i.transfer = some t) (hc : ChecksPass i t s)
    (hf : FpEnabled s) : exec i s = runTransfer i.iset t s := by
  rw [exec_checked i t s h hc, checkedTransfer, show fpAccess s = _ from hf]

/-- What reads that are allowed give. -/
theorem reads_ok (s : State) (base : Word) (count : Nat) (h : ReadsAllowed s base count) (r : Nat) (hr : r < count) :
    memRead s (base + BitVec.ofNat 32 (4 * r)) = .ok (wordFrom s base (4 * r)) :=
  memRead_ok _ _ (by rw [wordAligned_add]; exact h.1) (h.2.2 r hr)

/-- A list whose reads are all allowed is loaded whole. -/
theorem loadList_ok (t : Transfer) (s : State) (hd : t.d + t.regs ≤ 32)
    (hr : ReadsAllowed s (baseAddr t s) ((if t.singleRegs then 1 else 2) * t.regs)) :
    ∃ s', loadList t s = .ok s' ∧ s' = { s with dregs := s'.dregs } ∧
      (t.singleRegs = false → LoadedD s s' t.d t.regs (baseAddr t s)) ∧
      (t.singleRegs = true → LoadedS s s' t.d t.regs (baseAddr t s)) := by
  rcases hs : t.singleRegs with _ | _
  · simp only [hs, Bool.false_eq_true, if_false] at hr
    obtain ⟨s', h1, h2, h3⟩ := loadListD_spec t.regs t.d (baseAddr t s) s _ hd (reads_ok s _ _ hr)
    refine ⟨s', by simpa [loadList, hs] using h1, loadListD_frame _ _ _ _ _ h1,
      fun _ => ⟨fun r hrr => ?_, fun i _ hi => h3 i hi⟩, by simp⟩
    rw [h2 r hrr, combineWords, show 4 * (2 * r) = 8 * r by omega, show 4 * (2 * r + 1) = 8 * r + 4 by omega]
  · simp only [hs, if_true, one_mul] at hr
    obtain ⟨s', h1, h2, h3, h4⟩ := loadListS_spec t.regs t.d (baseAddr t s) s _ hd (reads_ok s _ _ hr)
    exact ⟨s', by simpa [loadList, hs] using h1, loadListS_frame _ _ _ _ _ h1, by simp,
      fun _ => ⟨h2, fun j _ hj => h3 j hj, fun i _ hi => h4 i hi⟩⟩

/-- The range test (20_memory.md R40): past the top, or a Decrement Before past the bottom. -/
theorem rangeCrosses_iff (t : Transfer) (s : State) :
    rangeCrosses t s = true ↔ 2 ^ 32 < (baseAddr t s).toNat + t.imm32.toNat ∨
      (t.add = false ∧ (readReg s t.n).toNat < t.imm32.toNat) := by
  simp [rangeCrosses]

/-- The transfer of a list whose reads are all allowed: what is loaded, what is written back, what is kept. -/
theorem runTransfer_ok (k : InstrSet) (t : Transfer) (s : State) (hd : t.d + t.regs ≤ 32)
    (hn : ¬ (t.n = 15#4 ∧ t.wback = true)) (hi : t.imm32.toNat = (if t.singleRegs then 4 else 8) * t.regs)
    (hr : ReadsAllowed s (baseAddr t s) ((if t.singleRegs then 1 else 2) * t.regs))
    (hb : t.add = false → t.imm32.toNat ≤ (readReg s t.n).toNat) :
    ∃ u, runTransfer k t s = .next u ∧
      (t.singleRegs = false → LoadedD s u t.d t.regs (baseAddr t s)) ∧
      (t.singleRegs = true → LoadedS s u t.d t.regs (baseAddr t s)) ∧
      WrittenBack s u t.n (t.wback = true) (backValue t s) ∧ u.pc = s.pc + 4#32 ∧
      u.itConds = (if k = .t32 then s.itConds.tail else s.itConds) ∧ OthersKept s u := by
  obtain ⟨s', h1, hf, h2, h3⟩ := loadList_ok t s hd hr
  have hw : ¬ (rangeCrosses t s = true) := by
    rw [rangeCrosses_iff, not_or]
    refine ⟨?_, fun ⟨ha, hl⟩ => absurd (hb ha) (by omega)⟩
    have := hr.2.1
    rw [hi]
    cases hs : t.singleRegs <;> rw [hs] at this <;>
      simp only [Bool.false_eq_true, if_false, if_true] at this ⊢ <;> omega
  have hregs : s'.regs = s.regs := (congrArg State.regs hf).trans rfl
  have hpc : s'.pc = s.pc := (congrArg State.pc hf).trans rfl
  have hit : s'.itConds = s.itConds := (congrArg State.itConds hf).trans rfl
  have hdr : (retire k (writeBack t s s')).dregs = s'.dregs := by
    rw [retire_dregs, writeBack]; split <;> rfl
  refine ⟨retire k (writeBack t s s'), by rw [runTransfer, if_neg hw, h1], fun hs => ?_, fun hs => ?_,
    ⟨fun hb => ?_, fun i h15 hi' => ?_⟩, ?_, ?_, ?_⟩
  · obtain ⟨a, b⟩ := h2 hs
    exact ⟨fun r hr => by rw [readD_congr _ _ _ hdr, a r hr],
      fun i hi hc => by rw [readD_congr _ _ _ hdr, b i hi hc]⟩
  · obtain ⟨a, b, c⟩ := h3 hs
    exact ⟨fun r hr => by rw [readS_congr _ _ _ hdr, a r hr],
      fun i hi hc => by rw [readS_congr _ _ _ hdr, b i hi hc], fun i hi hc => by rw [readD_congr _ _ _ hdr, c i hi hc]⟩
  · have hn : t.n ≠ 15#4 := fun h => hn ⟨h, hb⟩
    rw [readReg_congr _ _ _ hn (retire_regs _ _), writeBack, if_pos hb, readReg_writeReg _ _ _ _ hn, if_pos rfl]
  · rw [readReg_congr _ _ _ h15 (retire_regs _ _), writeBack]
    split
    · next hb =>
      have hn : t.n ≠ 15#4 := fun h => hn ⟨h, hb⟩
      rw [readReg_writeReg _ _ _ _ hn, if_neg (fun h => hi' ⟨hb, h⟩), readReg_congr _ _ _ h15 hregs]
    · exact readReg_congr _ _ _ h15 hregs
  · rw [retire_pc, writeBack]; split <;> simp [hpc]
  · have : (writeBack t s s').itConds = s.itConds := by rw [writeBack]; split <;> simp [hit]
    rw [retire_eq, this]
  · rw [OthersKept, retire_eq, writeBack]
    generalize hdd : s'.dregs = dd at hf
    subst hf
    split <;> rfl

/-! ## What an instruction can answer -/

/-- An abort under `CU_RANGE = Unknown` is one of R94: access is enabled, and the address is misaligned or not admitted. -/
theorem rangeAbort_some (s : State) (e : Abort) (h : rangeAbort s = some e) :
    fpAccess s = .enabled ∧ memRead s e.addr = .error e := by
  unfold rangeAbort at h
  split at h
  · next hf =>
    obtain ⟨a, _, ha⟩ := Option.bind_eq_some_iff.mp h
    have he : memRead s a = .error e := by
      unfold readAbort at ha
      split at ha
      · next h => rw [h]; cases ha; rfl
      · cases ha
    exact ⟨hf, by rwa [memRead_error s a e he]⟩
  · cases h
  · cases h

/-- The state `CU_RANGE = Unknown` leaves before the end of the instruction (40_vldm.md R87). -/
theorem unknownRange_cases (k : InstrSet) (t : Transfer) (s : State) :
    (rangeAbort s = none ∧
      unknownRange k t s = .next (retire k (if t.wback then drawReg (drawAllD s) t.n else drawAllD s))) ∨
    ∃ e, rangeAbort s = some e ∧
      unknownRange k t s =
        .fault (.dataAbort e.kind e.addr (if e.kind = .alignment then s else drawAllD s)) := by
  unfold unknownRange
  rcases h : rangeAbort s with _ | ⟨_ | _, a⟩
  · exact .inl ⟨rfl, rfl⟩
  · exact .inr ⟨_, rfl, rfl⟩
  · exact .inr ⟨_, rfl, rfl⟩

/-- What the enable check and the transfer can answer. -/
theorem checkedTransfer_cases (k : InstrSet) (t : Transfer) (s : State) :
    (fpAccess s = .undefined ∧ checkedTransfer k t s = .fault (.undefinedInstruction s.pc s)) ∨
    (fpAccess s = .hypTrap ∧ checkedTransfer k t s = .fault (.hypTrap s.pc s)) ∨
    (fpAccess s = .enabled ∧ rangeCrosses t s = true ∧
      checkedTransfer k t s = .refused .addressWrap) ∨
    (fpAccess s = .enabled ∧ ∃ e, loadList t s = .error e ∧
      checkedTransfer k t s = .fault (.dataAbort e.kind e.addr (abortState e t s))) ∨
    (fpAccess s = .enabled ∧ ∃ s', loadList t s = .ok s' ∧
      checkedTransfer k t s = .next (retire k (writeBack t s s'))) := by
  unfold checkedTransfer
  cases hf : fpAccess s
  · simp only [reduceCtorEq, false_and, true_and, false_or]
    unfold runTransfer
    split
    · next h => exact .inl ⟨h, rfl⟩
    · cases hl : loadList t s
      · exact .inr (.inl ⟨_, rfl, rfl⟩)
      · exact .inr (.inr ⟨_, rfl, rfl⟩)
  · exact .inl ⟨rfl, rfl⟩
  · exact .inr (.inl ⟨rfl, rfl⟩)

/-- Every next state is the end of the instruction after one of: nothing, a list loaded whole and the base written back,
or the draws of `CU_RANGE = Unknown`. -/
theorem exec_next (i : Instr) (s u : State) (h : exec i s = .next u) :
    u = retire i.iset s ∨ ∃ t, i.transfer = some t ∧ ¬ (t.n = 15#4 ∧ t.wback = true) ∧
      ((listTooLong t = false ∧ ∃ s', loadList t s = .ok s' ∧ u = retire i.iset (writeBack t s s')) ∨
       (listTooLong t = true ∧
          u = retire i.iset (if t.wback then drawReg (drawAllD s) t.n else drawAllD s))) := by
  have skip : ∀ body, conditional i.iset i.condSource s body = .next u → u = retire i.iset s ∨ body = .next u := by
    intro body hb
    rcases conditional_cases i.iset i.condSource s body with ⟨_, e⟩ | ⟨_, e⟩ | ⟨_, e⟩ <;> rw [e] at hb
    · exact .inr hb
    · cases hb; exact .inl rfl
    · cases hb
  rcases row_kinds i with ⟨t, ht⟩ | hu | ⟨o, ho, hne⟩ | hx
  · rw [exec_vldm i t s ht] at h
    rcases skip _ h with h | h
    · exact .inl h
    unfold vldm at h
    split at h
    · cases h
    next hb =>
    have hn : ¬ (t.n = 15#4 ∧ t.wback = true) := fun c => hb (by simp [pcBaseBarred, c.1, c.2])
    have checked : checkedTransfer i.iset t s = .next u →
        ∃ s', loadList t s = .ok s' ∧ u = retire i.iset (writeBack t s s') := fun h => by
      rcases checkedTransfer_cases i.iset t s with ⟨_, e⟩ | ⟨_, e⟩ | ⟨_, _, e⟩ | ⟨_, _, _, e⟩ | ⟨_, s', hs, e⟩ <;>
        rw [e] at h <;> cases h
      exact ⟨s', hs, rfl⟩
    split at h
    · next h0 =>
      have hl : listTooLong t = false := by
        have := (transfer_values i t ht).2.1
        simp [listTooLong, h0]; omega
      unfold emptyList at h
      split at h
      · cases h
      · cases h; exact .inl rfl
      · exact .inr ⟨t, ht, hn, .inl ⟨hl, checked h⟩⟩
      · cases h
    · split at h
      · next hl =>
        unfold longList at h
        split at h
        · cases h
        · cases h; exact .inl rfl
        · rcases unknownRange_cases i.iset t s with ⟨_, e⟩ | ⟨_, _, e⟩ <;> rw [e] at h <;> cases h
          exact .inr ⟨t, ht, hn, .inr ⟨hl, rfl⟩⟩
        · cases h
      · next hl => exact .inr ⟨t, ht, hn, .inl ⟨by simpa using hl, checked h⟩⟩
  · rw [exec_undefined i s hu] at h
    rcases skip _ h with h | h
    · exact .inl h
    · cases h
  · rw [exec_see i o s ho hne] at h
    rcases skip _ h with h | h
    · exact .inl h
    · cases h
  · rw [exec_fldmx i s hx] at h; cases h

/-- Every fault is one of R94, with the address of the instruction or of the word, and leaves the state as it was or, after
`DataAbort(Other)`, with draws in the register file. -/
theorem exec_fault (i : Instr) (s : State) (f : Fault) (h : exec i s = .fault f) :
    f = .undefinedInstruction s.pc s ∨ f = .hypTrap s.pc s ∨
    ∃ t, i.transfer = some t ∧
      ((∃ e, loadList t s = .error e ∧ f = .dataAbort e.kind e.addr (abortState e t s)) ∨
       ∃ e, rangeAbort s = some e ∧
         f = .dataAbort e.kind e.addr (if e.kind = .alignment then s else drawAllD s)) := by
  have skip : ∀ body, conditional i.iset i.condSource s body = .fault f → body = .fault f := by
    intro body hb
    rcases conditional_cases i.iset i.condSource s body with ⟨_, e⟩ | ⟨_, e⟩ | ⟨_, e⟩ <;> rw [e] at hb
    · exact hb
    · cases hb
    · cases hb
  rcases row_kinds i with ⟨t, ht⟩ | hu | ⟨o, ho, hne⟩ | hx
  · rw [exec_vldm i t s ht] at h
    replace h := skip _ h
    have checked : checkedTransfer i.iset t s = .fault f →
        f = .undefinedInstruction s.pc s ∨ f = .hypTrap s.pc s ∨
        ∃ e, loadList t s = .error e ∧ f = .dataAbort e.kind e.addr (abortState e t s) := fun h => by
      rcases checkedTransfer_cases i.iset t s with ⟨_, e⟩ | ⟨_, e⟩ | ⟨_, _, e⟩ | ⟨_, a, ha, e⟩ | ⟨_, s', hs, e⟩ <;>
        rw [e] at h <;> cases h
      · exact .inl rfl
      · exact .inr (.inl rfl)
      · exact .inr (.inr ⟨a, ha, rfl⟩)
    have answer : checkedTransfer i.iset t s = .fault f → f = .undefinedInstruction s.pc s ∨ f = .hypTrap s.pc s ∨
        ∃ t, i.transfer = some t ∧
          ((∃ e, loadList t s = .error e ∧ f = .dataAbort e.kind e.addr (abortState e t s)) ∨
           ∃ e, rangeAbort s = some e ∧
             f = .dataAbort e.kind e.addr (if e.kind = .alignment then s else drawAllD s)) := fun h => by
      rcases checked h with h | h | h
      · exact .inl h
      · exact .inr (.inl h)
      · exact .inr (.inr ⟨t, ht, .inl h⟩)
    unfold vldm at h
    split at h
    · cases h
    split at h
    · unfold emptyList at h
      split at h
      · cases h; exact .inl rfl
      · cases h
      · exact answer h
      · cases h
    · split at h
      · unfold longList at h
        split at h
        · cases h; exact .inl rfl
        · cases h
        · rcases unknownRange_cases i.iset t s with ⟨_, e⟩ | ⟨a, ha, e⟩ <;> rw [e] at h <;> cases h
          exact .inr (.inr ⟨t, ht, .inr ⟨a, ha, rfl⟩⟩)
        · cases h
      · exact answer h
  · rw [exec_undefined i s hu] at h
    cases skip _ h; exact .inl rfl
  · rw [exec_see i o s ho hne] at h
    cases skip _ h
  · rw [exec_fldmx i s hx] at h; cases h

/-! ## Two runs -/

/-- An instruction commutes with a change `f` of the state that the condition, the enable check, the parameters, the base
and the reads do not see, and that commutes with every write the instruction makes. -/
theorem exec_map (f : State → State) (i : Instr) (s : State)
    (hcond : ∀ src, condOk src (f s) = condOk src s) (hretire : ∀ k x, retire k (f x) = f (retire k x))
    (hfp : fpAccess (f s) = fpAccess s) (hpc : (f s).pc = s.pc) (hregs0 : (f s).cuRegs0 = s.cuRegs0)
    (hrange : (f s).cuRange = s.cuRange) (hiset : (f s).iset = s.iset) (hdraws : (f s).draws = s.draws)
    (hread : ∀ a, readAbort (f s) a = readAbort s a)
    (hcross : ∀ t, i.transfer = some t → rangeCrosses t (f s) = rangeCrosses t s)
    (hload : ∀ t, i.transfer = some t → loadList t (f s) = (loadList t s).map f)
    (hback : ∀ t, i.transfer = some t → ∀ x, writeBack t (f s) (f x) = f (writeBack t s x))
    (hdraw : ∀ t, drawList t (f s) = f (drawList t s)) (hall : drawAllD (f s) = f (drawAllD s))
    (hreg : ∀ t, i.transfer = some t → ∀ x, drawReg (f x) t.n = f (drawReg x t.n)) :
    exec i (f s) = mapState f (exec i s) := by
  have under : ∀ k src b b', b' = mapState f b → conditional k src (f s) b' = mapState f (conditional k src s b) := by
    rintro k src b _ rfl
    unfold conditional
    rw [hcond]
    split
    · rfl
    · rw [hretire]; rfl
    · rfl
  rcases row_kinds i with ⟨t, ht⟩ | hu | ⟨o, ho, hne⟩ | hx
  · rw [exec_vldm i t _ ht, exec_vldm i t s ht]
    apply under
    have checked : ∀ k, checkedTransfer k t (f s) = mapState f (checkedTransfer k t s) := by
      intro k
      unfold checkedTransfer
      rw [hfp]
      split
      · simp [raise, hpc, mapState]
      · simp [raise, hpc, mapState]
      · unfold runTransfer
        rw [hcross t ht, hload t ht]
        split
        · rfl
        · cases loadList t s with
          | error e => rcases e with ⟨_ | _, a⟩ <;> simp [Except.map, raise, abortState, mapState, hdraw]
          | ok v => simp [Except.map, hretire, mapState, hback t ht]
    unfold vldm
    rw [show pcBaseBarred t (f s) = pcBaseBarred t s by simp [pcBaseBarred, hiset]]
    split
    · rfl
    split
    · unfold emptyList
      rw [hregs0]
      split
      · simp [raise, hpc, mapState]
      · simp [hretire, mapState]
      · exact checked _
      · rfl
    split
    · unfold longList
      rw [hrange]
      split
      · simp [raise, hpc, mapState]
      · simp [hretire, mapState]
      · unfold unknownRange
        rw [show rangeAbort (f s) = rangeAbort s by simp [rangeAbort, hfp, hdraws, funext hread]]
        split
        · split
          · simp [raise, mapState]
          · simp [raise, mapState, hall]
        · split
          · simp [mapState, hall, hretire, hreg t ht]
          · simp [mapState, hall, hretire]
      · rfl
    · exact checked _
  · rw [exec_undefined i s hu, exec_undefined i _ hu]
    apply under
    simp [raise, mapState, hpc]
  · rw [exec_see i o s ho hne, exec_see i o _ ho hne]
    apply under
    simp [mapState]
  · rw [exec_fldmx i s hx, exec_fldmx i _ hx]
    simp [mapState]

end Sys2Proof.Machine
end

