-- ==== Sys2Proof/Laws/Memory.lean ====
section
/-! SUPPORT. The laws of memory: a read after a write, the canonical form, and the reads that depend on memory only. -/

namespace Sys2Proof.Machine

/-- Reading the address just written gives the value written; every other address reads as before. -/
theorem Memory.read_write (m : Memory) (a : Nat) (v : Byte) (x : Nat) (h : m.wf = true) :
    (m.write a v).read x = if x = a then v else m.read x := by
  induction m with
  | nil =>
    by_cases hv : v = unlistedByte <;> by_cases hx : x = a
    all_goals simp [Memory.write, Memory.read, hv, hx]
    intro h'; exact absurd h'.symm hx
  | cons c rest ih =>
    obtain ⟨b, w⟩ := c
    simp only [Memory.wf, Bool.and_eq_true, decide_eq_true_eq, List.all_eq_true] at h
    obtain ⟨⟨⟨_, _⟩, hlt⟩, hwf⟩ := h
    have absent : ∀ (l : Memory) (y : Nat), (∀ c ∈ l, y < c.1) → l.read y = unlistedByte := by
      intro l y hl
      induction l with
      | nil => rfl
      | cons c r ihl =>
        have : y < c.1 := hl c (by simp)
        simp only [Memory.read]
        rw [if_neg (by omega)]
        exact ihl fun d hd => hl d (by simp [hd])
    simp only [Memory.write]
    split
    · next hab =>
      have habs : Memory.read ((b, w) :: rest) a = unlistedByte := by
        refine absent _ a fun c hc => ?_
        rcases List.mem_cons.1 hc with rfl | hc
        · exact hab
        · have := hlt c hc; omega
      split
      · next hv =>
        by_cases hx : x = a
        · rw [hx, if_pos rfl, habs, hv]
        · rw [if_neg hx]
      · by_cases hx : x = a
        · simp [Memory.read, hx]
        · rw [if_neg hx, Memory.read, if_neg (by omega)]
    · split
      · next _ hab =>
        subst hab
        split
        · next hv =>
          by_cases hx : x = a
          · rw [hx, if_pos rfl, hv]
            exact absent rest a fun c hc => by simpa using hlt c hc
          · rw [if_neg hx, Memory.read, if_neg (by omega)]
        · by_cases hx : x = a
          · simp [Memory.read, hx]
          · rw [if_neg hx, Memory.read, Memory.read, if_neg (by omega), if_neg (by omega)]
      · next h1 h2 =>
        simp only [Memory.read]
        rw [ih hwf]
        by_cases hx : x = a
        · subst hx; rw [if_neg (by omega)]; simp
        · simp [hx]

/-- A byte written above a bound keeps every address above it. -/
theorem Memory.write_all_gt (m : Memory) (a : Nat) (v : Byte) (y : Nat) (hy : y < a)
    (h : m.all (fun c => decide (y < c.1)) = true) : (m.write a v).all (fun c => decide (y < c.1)) = true := by
  induction m with
  | nil => by_cases hv : v = unlistedByte <;> simp [Memory.write, hv, hy]
  | cons c rest ih =>
    rw [List.all_cons, Bool.and_eq_true, decide_eq_true_eq] at h
    simp only [Memory.write]
    split_ifs <;> try simp only [List.all_cons, Bool.and_eq_true, decide_eq_true_eq]
    exacts [h, ⟨hy, h⟩, h.2, ⟨hy, h.2⟩, ⟨h.1, ih h.2⟩]

/-- A write keeps the canonical form. -/
theorem Memory.wf_write (m : Memory) (a : Nat) (v : Byte) (ha : a < 2 ^ 32) (h : m.wf = true) :
    (m.write a v).wf = true := by
  induction m with
  | nil => by_cases hv : v = unlistedByte <;> simp [Memory.write, Memory.wf, hv]; omega
  | cons c rest ih =>
    obtain ⟨b, w⟩ := c
    have h0 := h
    simp only [Memory.wf, Bool.and_eq_true, decide_eq_true_eq] at h
    obtain ⟨⟨⟨hb, hw⟩, hlt⟩, hwf⟩ := h
    simp only [Memory.write]
    split
    · next hab =>
      split
      · exact h0
      · next hv =>
        rw [Memory.wf, h0]
        simp only [ha, hv, decide_true, not_false_eq_true, ne_eq, Bool.and_true, Bool.true_and, List.all_cons, hab]
        refine List.all_eq_true.2 fun c hc => decide_eq_true ?_
        have := of_decide_eq_true (List.all_eq_true.1 hlt c hc)
        omega
    · split
      · next _ hab =>
        subst hab
        split
        · exact hwf
        · next hv => simp [Memory.wf, hv, hlt, hwf]; omega
      · next h1 h2 =>
        have hall := Memory.write_all_gt rest a v b (by omega) hlt
        simp only [Memory.wf, hall, ih hwf, hw, decide_true, ne_eq, not_false_eq_true, Bool.and_true]
        exact decide_eq_true hb

/-- The writes of a list of bytes keep the canonical form. -/
theorem wf_writeBytes (bs : List Byte) (m : Memory) (a : Word) (h : m.wf = true) : (writeBytes m a bs).wf = true := by
  induction bs generalizing m a with
  | nil => exact h
  | cons b bs ih => exact ih _ _ (Memory.wf_write m _ b a.isLt h)

/-- Memory at reset is in canonical form. -/
theorem reset_mem_wf : State.reset.mem.wf = true := rfl

/-- Placing a program word keeps the canonical form. -/
theorem placeWord_mem_wf (s : State) (k : InstrSet) (w : BitVec 32) (h : s.mem.wf = true) :
    (placeWord s k w).mem.wf = true :=
  wf_writeBytes _ _ _ h

end Sys2Proof.Machine
end

