-- ==== Sys2Proof/Laws/PerInstr.lean ====
section
/-! SUPPORT. The family RowBits: the word of every instruction has the fixed bits of its row of spec/opcode_table.json. -/

namespace Sys2Proof

/-- A masked pair of fields is the pair of the masked fields. -/
theorem and_fields (a b : Nat) (x m z : BitVec a) (y n v : BitVec b) (hx : x &&& m = z) (hy : y &&& n = v) :
    (x ++ y) &&& (m ++ n) = z ++ v := by
  rw [BitVec.and_append, hx, hy]

/-- A word of the shared layout under a mask that clears `D`, `Rn` and `Vd`. -/
theorem loadWord_and (top mt : BitVec 4) (p u d w mp mu mw : BitVec 1) (rn vd : BitVec 4) (size : BitVec 2)
    (imm8 mi : BitVec 8) :
    loadWord top p u d w rn vd size imm8 &&&
      (mt ++ 0b111#3 ++ mp ++ mu ++ 0#1 ++ mw ++ 1#1 ++ 0#4 ++ 0#4 ++ 0b11#2 ++ 0b11#2 ++ mi : BitVec 32) =
    loadWord (top &&& mt) (p &&& mp) (u &&& mu) 0#1 (w &&& mw) 0#4 0#4 size (imm8 &&& mi) := by
  have hs : size &&& 0b11#2 = size := by revert size; decide
  refine and_fields 24 8 _ _ _ _ _ _ (and_fields 22 2 _ _ _ _ _ _ (and_fields 20 2 _ _ _ _ _ _ (and_fields 16 4 _ _ _ _ _ _
    (and_fields 12 4 _ _ _ _ _ _ (and_fields 11 1 _ _ _ _ _ _ (and_fields 10 1 _ _ _ _ _ _ (and_fields 9 1 _ _ _ _ _ _
    (and_fields 8 1 _ _ _ _ _ _ (and_fields 7 1 _ _ _ _ _ _ (and_fields 4 3 _ _ _ _ _ _ rfl ?_) rfl) rfl) ?_) rfl) ?_) ?_)
    ?_) ?_) hs) rfl <;>
  first | decide | exact BitVec.and_zero

/-- Bit 0 of an `imm8` of the classes A1 and T1. -/
theorem imm8_bit0 (imm7 : BitVec 7) (b : BitVec 1) : (imm7 ++ b : BitVec 8) &&& 1#8 = b.setWidth 8 := by
  have h : (1#8 : BitVec 8) = 0#7 ++ 1#1 := by decide
  have hb : b &&& 1#1 = b := by revert b; decide
  rw [h, BitVec.and_append, BitVec.and_zero, hb]
  revert b; decide

namespace Laws.RowBits

/-- The mask and the match of the instruction's row of spec/opcode_table.json (30_encoding.md R59, R60, R62, R64). -/
def row : Instr → BitVec 32 × BitVec 32
  | .vldmdbA1 _ _ _ _ _ => (0x0FB00F01#32, 0x0D300B00#32)
  | .vldmA1 _ _ _ _ _ _ => (0x0F900F01#32, 0x0C900B00#32)
  | .vldmdbA2 _ _ _ _ _ => (0x0FB00F00#32, 0x0D300A00#32)
  | .vldmA2 _ _ _ _ _ _ => (0x0F900F00#32, 0x0C900A00#32)
  | .vldmdbT1 _ _ _ _ => (0xFFB00F01#32, 0xED300B00#32)
  | .vldmT1 _ _ _ _ _ => (0xFF900F01#32, 0xEC900B00#32)
  | .vldmdbT2 _ _ _ _ => (0xFFB00F00#32, 0xED300A00#32)
  | .vldmT2 _ _ _ _ _ => (0xFF900F00#32, 0xEC900A00#32)
  | .undefA1Puw001 _ _ _ _ _ => (0x0FB00F01#32, 0x0C300B00#32)
  | .undefA1Puw111 _ _ _ _ _ => (0x0FB00F01#32, 0x0DB00B00#32)
  | .undefA2Puw001 _ _ _ _ _ => (0x0FB00F00#32, 0x0C300A00#32)
  | .undefA2Puw111 _ _ _ _ _ => (0x0FB00F00#32, 0x0DB00A00#32)
  | .undefT1Puw001 _ _ _ _ => (0xFFB00F01#32, 0xEC300B00#32)
  | .undefT1Puw111 _ _ _ _ => (0xFFB00F01#32, 0xEDB00B00#32)
  | .undefT2Puw001 _ _ _ _ => (0xFFB00F00#32, 0xEC300A00#32)
  | .undefT2Puw111 _ _ _ _ => (0xFFB00F00#32, 0xEDB00A00#32)
  | .seeMov64A1 _ _ _ _ _ => (0x0FB00F01#32, 0x0C100B00#32)
  | .seeVldrA1 _ _ _ _ _ _ => (0x0F300F01#32, 0x0D100B00#32)
  | .seeMov64A2 _ _ _ _ _ => (0x0FB00F00#32, 0x0C100A00#32)
  | .seeVldrA2 _ _ _ _ _ _ => (0x0F300F00#32, 0x0D100A00#32)
  | .seeMov64T1 _ _ _ _ => (0xFFB00F01#32, 0xEC100B00#32)
  | .seeVldrT1 _ _ _ _ _ => (0xFF300F01#32, 0xED100B00#32)
  | .seeMov64T2 _ _ _ _ => (0xFFB00F00#32, 0xEC100A00#32)
  | .seeVldrT2 _ _ _ _ _ => (0xFF300F00#32, 0xED100A00#32)
  | .seeFldmxA32 _ _ _ _ _ _ _ _ => (0x0E100F01#32, 0x0C100B01#32)
  | .seeFldmxT32 _ _ _ _ _ _ _ => (0xFE100F01#32, 0xEC100B01#32)

/-- The word of the instruction has the fixed bits of its row. -/
def Statement (i : Instr) : Prop := encode i &&& (row i).1 = (row i).2

theorem vldmdbA1 (cond : BitVec 4) (d : BitVec 1) (rn vd : BitVec 4) (imm7 : BitVec 7) :
    Statement (.vldmdbA1 cond d rn vd imm7) := by
  refine (loadWord_and _ 0#4 _ _ _ _ 1#1 1#1 1#1 _ _ _ _ 1#8).trans ?_
  rw [imm8_bit0]
  simp only [BitVec.and_zero]
  rfl

theorem vldmA1 (cond : BitVec 4) (d w : BitVec 1) (rn vd : BitVec 4) (imm7 : BitVec 7) :
    Statement (.vldmA1 cond d w rn vd imm7) := by
  refine (loadWord_and _ 0#4 _ _ _ _ 1#1 1#1 0#1 _ _ _ _ 1#8).trans ?_
  rw [imm8_bit0]
  simp only [BitVec.and_zero]
  rfl

theorem vldmdbA2 (cond : BitVec 4) (d : BitVec 1) (rn vd : BitVec 4) (imm8 : BitVec 8) :
    Statement (.vldmdbA2 cond d rn vd imm8) := by
  refine (loadWord_and _ 0#4 _ _ _ _ 1#1 1#1 1#1 _ _ _ _ 0#8).trans ?_
  simp only [BitVec.and_zero]
  rfl

theorem vldmA2 (cond : BitVec 4) (d w : BitVec 1) (rn vd : BitVec 4) (imm8 : BitVec 8) :
    Statement (.vldmA2 cond d w rn vd imm8) := by
  refine (loadWord_and _ 0#4 _ _ _ _ 1#1 1#1 0#1 _ _ _ _ 0#8).trans ?_
  simp only [BitVec.and_zero]
  rfl

theorem vldmdbT1 (d : BitVec 1) (rn vd : BitVec 4) (imm7 : BitVec 7) :
    Statement (.vldmdbT1 d rn vd imm7) := by
  refine (loadWord_and _ 15#4 _ _ _ _ 1#1 1#1 1#1 _ _ _ _ 1#8).trans ?_
  rw [imm8_bit0]
  rfl

theorem vldmT1 (d w : BitVec 1) (rn vd : BitVec 4) (imm7 : BitVec 7) :
    Statement (.vldmT1 d w rn vd imm7) := by
  refine (loadWord_and _ 15#4 _ _ _ _ 1#1 1#1 0#1 _ _ _ _ 1#8).trans ?_
  rw [imm8_bit0]
  simp only [BitVec.and_zero]
  rfl

theorem vldmdbT2 (d : BitVec 1) (rn vd : BitVec 4) (imm8 : BitVec 8) :
    Statement (.vldmdbT2 d rn vd imm8) := by
  refine (loadWord_and _ 15#4 _ _ _ _ 1#1 1#1 1#1 _ _ _ _ 0#8).trans ?_
  simp only [BitVec.and_zero]
  rfl

theorem vldmT2 (d w : BitVec 1) (rn vd : BitVec 4) (imm8 : BitVec 8) :
    Statement (.vldmT2 d w rn vd imm8) := by
  refine (loadWord_and _ 15#4 _ _ _ _ 1#1 1#1 0#1 _ _ _ _ 0#8).trans ?_
  simp only [BitVec.and_zero]
  rfl

theorem undefA1Puw001 (cond : BitVec 4) (d : BitVec 1) (rn vd : BitVec 4) (imm7 : BitVec 7) :
    Statement (.undefA1Puw001 cond d rn vd imm7) := by
  refine (loadWord_and _ 0#4 _ _ _ _ 1#1 1#1 1#1 _ _ _ _ 1#8).trans ?_
  rw [imm8_bit0]
  simp only [BitVec.and_zero]
  rfl

theorem undefA1Puw111 (cond : BitVec 4) (d : BitVec 1) (rn vd : BitVec 4) (imm7 : BitVec 7) :
    Statement (.undefA1Puw111 cond d rn vd imm7) := by
  refine (loadWord_and _ 0#4 _ _ _ _ 1#1 1#1 1#1 _ _ _ _ 1#8).trans ?_
  rw [imm8_bit0]
  simp only [BitVec.and_zero]
  rfl

theorem undefA2Puw001 (cond : BitVec 4) (d : BitVec 1) (rn vd : BitVec 4) (imm8 : BitVec 8) :
    Statement (.undefA2Puw001 cond d rn vd imm8) := by
  refine (loadWord_and _ 0#4 _ _ _ _ 1#1 1#1 1#1 _ _ _ _ 0#8).trans ?_
  simp only [BitVec.and_zero]
  rfl

theorem undefA2Puw111 (cond : BitVec 4) (d : BitVec 1) (rn vd : BitVec 4) (imm8 : BitVec 8) :
    Statement (.undefA2Puw111 cond d rn vd imm8) := by
  refine (loadWord_and _ 0#4 _ _ _ _ 1#1 1#1 1#1 _ _ _ _ 0#8).trans ?_
  simp only [BitVec.and_zero]
  rfl

theorem undefT1Puw001 (d : BitVec 1) (rn vd : BitVec 4) (imm7 : BitVec 7) :
    Statement (.undefT1Puw001 d rn vd imm7) := by
  refine (loadWord_and _ 15#4 _ _ _ _ 1#1 1#1 1#1 _ _ _ _ 1#8).trans ?_
  rw [imm8_bit0]
  rfl

theorem undefT1Puw111 (d : BitVec 1) (rn vd : BitVec 4) (imm7 : BitVec 7) :
    Statement (.undefT1Puw111 d rn vd imm7) := by
  refine (loadWord_and _ 15#4 _ _ _ _ 1#1 1#1 1#1 _ _ _ _ 1#8).trans ?_
  rw [imm8_bit0]
  rfl

theorem undefT2Puw001 (d : BitVec 1) (rn vd : BitVec 4) (imm8 : BitVec 8) :
    Statement (.undefT2Puw001 d rn vd imm8) := by
  refine (loadWord_and _ 15#4 _ _ _ _ 1#1 1#1 1#1 _ _ _ _ 0#8).trans ?_
  simp only [BitVec.and_zero]
  rfl

theorem undefT2Puw111 (d : BitVec 1) (rn vd : BitVec 4) (imm8 : BitVec 8) :
    Statement (.undefT2Puw111 d rn vd imm8) := by
  refine (loadWord_and _ 15#4 _ _ _ _ 1#1 1#1 1#1 _ _ _ _ 0#8).trans ?_
  simp only [BitVec.and_zero]
  rfl

theorem seeMov64A1 (cond : BitVec 4) (d : BitVec 1) (rn vd : BitVec 4) (imm7 : BitVec 7) :
    Statement (.seeMov64A1 cond d rn vd imm7) := by
  refine (loadWord_and _ 0#4 _ _ _ _ 1#1 1#1 1#1 _ _ _ _ 1#8).trans ?_
  rw [imm8_bit0]
  simp only [BitVec.and_zero]
  rfl

theorem seeVldrA1 (cond : BitVec 4) (u d : BitVec 1) (rn vd : BitVec 4) (imm7 : BitVec 7) :
    Statement (.seeVldrA1 cond u d rn vd imm7) := by
  refine (loadWord_and _ 0#4 _ _ _ _ 1#1 0#1 1#1 _ _ _ _ 1#8).trans ?_
  rw [imm8_bit0]
  simp only [BitVec.and_zero]
  rfl

theorem seeMov64A2 (cond : BitVec 4) (d : BitVec 1) (rn vd : BitVec 4) (imm8 : BitVec 8) :
    Statement (.seeMov64A2 cond d rn vd imm8) := by
  refine (loadWord_and _ 0#4 _ _ _ _ 1#1 1#1 1#1 _ _ _ _ 0#8).trans ?_
  simp only [BitVec.and_zero]
  rfl

theorem seeVldrA2 (cond : BitVec 4) (u d : BitVec 1) (rn vd : BitVec 4) (imm8 : BitVec 8) :
    Statement (.seeVldrA2 cond u d rn vd imm8) := by
  refine (loadWord_and _ 0#4 _ _ _ _ 1#1 0#1 1#1 _ _ _ _ 0#8).trans ?_
  simp only [BitVec.and_zero]
  rfl

theorem seeMov64T1 (d : BitVec 1) (rn vd : BitVec 4) (imm7 : BitVec 7) :
    Statement (.seeMov64T1 d rn vd imm7) := by
  refine (loadWord_and _ 15#4 _ _ _ _ 1#1 1#1 1#1 _ _ _ _ 1#8).trans ?_
  rw [imm8_bit0]
  rfl

theorem seeVldrT1 (u d : BitVec 1) (rn vd : BitVec 4) (imm7 : BitVec 7) :
    Statement (.seeVldrT1 u d rn vd imm7) := by
  refine (loadWord_and _ 15#4 _ _ _ _ 1#1 0#1 1#1 _ _ _ _ 1#8).trans ?_
  rw [imm8_bit0]
  simp only [BitVec.and_zero]
  rfl

theorem seeMov64T2 (d : BitVec 1) (rn vd : BitVec 4) (imm8 : BitVec 8) :
    Statement (.seeMov64T2 d rn vd imm8) := by
  refine (loadWord_and _ 15#4 _ _ _ _ 1#1 1#1 1#1 _ _ _ _ 0#8).trans ?_
  simp only [BitVec.and_zero]
  rfl

theorem seeVldrT2 (u d : BitVec 1) (rn vd : BitVec 4) (imm8 : BitVec 8) :
    Statement (.seeVldrT2 u d rn vd imm8) := by
  refine (loadWord_and _ 15#4 _ _ _ _ 1#1 0#1 1#1 _ _ _ _ 0#8).trans ?_
  simp only [BitVec.and_zero]
  rfl

theorem seeFldmxA32 (cond : BitVec 4) (p u d w : BitVec 1) (rn vd : BitVec 4) (imm7 : BitVec 7) :
    Statement (.seeFldmxA32 cond p u d w rn vd imm7) := by
  refine (loadWord_and _ 0#4 _ _ _ _ 0#1 0#1 0#1 _ _ _ _ 1#8).trans ?_
  rw [imm8_bit0]
  simp only [BitVec.and_zero]
  rfl

theorem seeFldmxT32 (p u d w : BitVec 1) (rn vd : BitVec 4) (imm7 : BitVec 7) :
    Statement (.seeFldmxT32 p u d w rn vd imm7) := by
  refine (loadWord_and _ 15#4 _ _ _ _ 0#1 0#1 0#1 _ _ _ _ 1#8).trans ?_
  rw [imm8_bit0]
  simp only [BitVec.and_zero]
  rfl

end Laws.RowBits

end Sys2Proof
end

