-- ==== Sys2Proof/Laws/Run.lean ====
section
/-! SUPPORT. What the runs of 70_reset_and_hazards.md R119 can do: one step at a time, and that an ended run stays ended. -/

namespace Sys2Proof.Machine

@[simp] theorem runSteps_zero (s : State) : runSteps 0 s = .next s := rfl

/-- A run goes on after a step that completes. -/
theorem runSteps_next (count : Nat) (s t : State) (h : step s = .next t) :
    runSteps (count + 1) s = runSteps count t := by
  simp [runSteps, h]

/-- A run at the named address has ended there, whatever steps remain. -/
theorem runTo_here (count : Nat) (s : State) : runTo s.pc count s = some (.next s) := by
  cases count <;> simp [runTo]

/-- Away from the named address a run goes on after a step that completes. -/
theorem runTo_next (goal : Word) (count : Nat) (s t : State) (hpc : s.pc ≠ goal) (h : step s = .next t) :
    runTo goal (count + 1) s = runTo goal count t := by
  simp [runTo, hpc, h]

/-- An ended run stays ended: more steps change nothing. -/
theorem runTo_mono (goal : Word) (n m : Nat) (s : State) (r : Result) (hnm : n ≤ m) (h : runTo goal n s = some r) :
    runTo goal m s = some r := by
  induction n generalizing m s with
  | zero =>
    simp only [runTo] at h
    split at h
    · next hpc => rw [← h, ← hpc]; exact runTo_here m s
    · cases h
  | succ n ih =>
    obtain ⟨k, rfl⟩ : ∃ k, m = k + 1 := ⟨m - 1, by omega⟩
    simp only [runTo] at h ⊢
    split at h
    · next hpc => rw [if_pos hpc]; exact h
    · next hpc =>
      rw [if_neg hpc]
      cases hs : step s with
      | next t => rw [hs] at h; exact ih k t (by omega) h
      | fault f => rw [hs] at h; exact h
      | refused why => rw [hs] at h; exact h

end Sys2Proof.Machine
end

