-- ==== Sys2Proof/Tests/Slice0.lean ====
section
/-! SUPPORT. Tests from the vectors of 95_test_vectors.md, the smoke test of WellFormed, and a witness for the hypotheses of
every statement. -/

namespace Sys2Proof.Machine.Test

/-! ## Helpers -/

/-- A launch state as 95_test_vectors.md assumes it: enabled, every address admitted. -/
def plain : State :=
  { State.reset with pc := 0x8000#32, fpGrant := some .enabled, admitted := some [⟨0, 2 ^ 32⟩] }

/-- The same in T32. -/
def thumb : State := { plain with iset := .t32 }

/-- A state with bytes placed in memory. -/
def withBytes (s : State) (a : Word) (bs : List Byte) : State := { s with mem := writeBytes s.mem a bs }

/-- `count` bytes counting up from `start`. -/
def ramp (start count : Nat) : List Byte := (List.range count).map fun i => BitVec.ofNat 8 (start + i)

/-- The outcome of one word of the current instruction set. -/
def run (w : BitVec 32) (s : State) : Result :=
  match decodeWord s.iset w with
  | .ok i => exec i s
  | .error why => .refused (.notInSpec why)

/-- The fault of an outcome. -/
def faultOf (r : Result) : Option Fault :=
  match r with
  | .next _ => none
  | .fault f => some f
  | .refused _ => none

/-- The refusal of an outcome. -/
def refusalOf (r : Result) : Option Refusal :=
  match r with
  | .next _ => none
  | .fault _ => none
  | .refused why => some why

/-! ## WellFormed: the smoke test -/

/-- `cond == 1111` is refused in every A32 row (30_encoding.md R63). -/
theorem test_wf_refuses_cond1111 :
    Instr.wf (.vldmdbA1 15#4 0#1 0#4 0#4 1#7) = false ∧ Instr.wf (.vldmA1 15#4 0#1 0#1 0#4 0#4 1#7) = false ∧
    Instr.wf (.vldmdbA2 15#4 0#1 0#4 0#4 1#8) = false ∧ Instr.wf (.vldmA2 15#4 0#1 0#1 0#4 0#4 1#8) = false ∧
    Instr.wf (.undefA1Puw001 15#4 0#1 0#4 0#4 1#7) = false ∧ Instr.wf (.undefA1Puw111 15#4 0#1 0#4 0#4 1#7) = false ∧
    Instr.wf (.undefA2Puw001 15#4 0#1 0#4 0#4 1#8) = false ∧ Instr.wf (.undefA2Puw111 15#4 0#1 0#4 0#4 1#8) = false ∧
    Instr.wf (.seeMov64A1 15#4 0#1 0#4 0#4 1#7) = false ∧ Instr.wf (.seeVldrA1 15#4 0#1 0#1 0#4 0#4 1#7) = false ∧
    Instr.wf (.seeMov64A2 15#4 0#1 0#4 0#4 1#8) = false ∧ Instr.wf (.seeVldrA2 15#4 0#1 0#1 0#4 0#4 1#8) = false ∧
    Instr.wf (.seeFldmxA32 15#4 0#1 0#1 0#1 0#1 0#4 0#4 1#7) = false := by decide

/-- Every other condition is well-formed. -/
theorem test_wf_accepts_cond1110 :
    Instr.wf (.vldmA1 14#4 0#1 0#1 0#4 0#4 1#7) = true ∧ Instr.wf (.vldmA2 0#4 0#1 0#1 0#4 0#4 1#8) = true := by decide

/-! ## Decoding (95_test_vectors.md section 2.1) -/

/-- E1, E2, E12, E13, E15, E17: words of VLDM_A1, and E10 (VPOP). -/
theorem test_decode_vldmA1 :
    decodeWord .a32 0xEC900B02#32 = .ok (.vldmA1 14#4 0#1 0#1 0#4 0#4 1#7) ∧
    decodeWord .a32 0xECB12B08#32 = .ok (.vldmA1 14#4 0#1 1#1 1#4 2#4 4#7) ∧
    decodeWord .a32 0x1CD4FB02#32 = .ok (.vldmA1 1#4 1#1 0#1 4#4 15#4 1#7) ∧
    decodeWord .a32 0xEC9F0B02#32 = .ok (.vldmA1 14#4 0#1 0#1 15#4 0#4 1#7) ∧
    decodeWord .a32 0xECD00B20#32 = .ok (.vldmA1 14#4 1#1 0#1 0#4 0#4 16#7) ∧
    decodeWord .a32 0xECB7FB04#32 = .ok (.vldmA1 14#4 0#1 1#1 7#4 15#4 2#7) ∧
    decodeWord .a32 0xECBD8B10#32 = .ok (.vldmA1 14#4 0#1 1#1 13#4 8#4 8#7) := by decide

/-- E3: VLDMDB_A1. -/
theorem test_decode_vldmdbA1 :
    decodeWord .a32 0xED720B04#32 = .ok (.vldmdbA1 14#4 1#1 2#4 0#4 2#7) := by decide

/-- E4, E11, E16, E19: VLDM_A2. -/
theorem test_decode_vldmA2 :
    decodeWord .a32 0xECD30A03#32 = .ok (.vldmA2 14#4 1#1 0#1 3#4 0#4 3#8) ∧
    decodeWord .a32 0xECBD0A01#32 = .ok (.vldmA2 14#4 0#1 1#1 13#4 0#4 1#8) ∧
    decodeWord .a32 0xEC900A20#32 = .ok (.vldmA2 14#4 0#1 0#1 0#4 0#4 32#8) ∧
    decodeWord .a32 0x0C910A01#32 = .ok (.vldmA2 0#4 0#1 0#1 1#4 0#4 1#8) := by decide

/-- E5, E18: VLDMDB_A2. -/
theorem test_decode_vldmdbA2 :
    decodeWord .a32 0xED7DFA01#32 = .ok (.vldmdbA2 14#4 1#1 13#4 15#4 1#8) ∧
    decodeWord .a32 0xED767A02#32 = .ok (.vldmdbA2 14#4 1#1 6#4 7#4 2#8) := by decide

/-- E6 to E9, E14: the T32 encodings, from the bytes as they lie in memory (20_memory.md R48). -/
theorem test_decode_t32 :
    decode .t32 [0xB0#8, 0xEC#8, 0x20#8, 0x0B#8] = .ok (.vldmT1 0#1 1#1 0#4 0#4 16#7) ∧
    decode .t32 [0x3D#8, 0xED#8, 0x04#8, 0x8B#8] = .ok (.vldmdbT1 0#1 13#4 8#4 2#7) ∧
    decode .t32 [0x94#8, 0xEC#8, 0x20#8, 0x0A#8] = .ok (.vldmT2 0#1 0#1 4#4 0#4 32#8) ∧
    decode .t32 [0x35#8, 0xED#8, 0x02#8, 0xFA#8] = .ok (.vldmdbT2 0#1 5#4 15#4 2#8) ∧
    decode .t32 [0xF5#8, 0xEC#8, 0x04#8, 0xEB#8] = .ok (.vldmT1 1#1 1#1 5#4 14#4 2#7) := by decide

/-- Q1 to Q4: the UNDEFINED rows, in both instruction sets. -/
theorem test_decode_undefined :
    decodeWord .a32 0xEC300B02#32 = .ok (.undefA1Puw001 14#4 0#1 0#4 0#4 1#7) ∧
    decodeWord .a32 0xEDB00B02#32 = .ok (.undefA1Puw111 14#4 0#1 0#4 0#4 1#7) ∧
    decodeWord .a32 0xEC300A01#32 = .ok (.undefA2Puw001 14#4 0#1 0#4 0#4 1#8) ∧
    decodeWord .a32 0xEDB00A01#32 = .ok (.undefA2Puw111 14#4 0#1 0#4 0#4 1#8) ∧
    decodeWord .t32 0xEC300B02#32 = .ok (.undefT1Puw001 0#1 0#4 0#4 1#7) ∧
    decodeWord .t32 0xEDB00B02#32 = .ok (.undefT1Puw111 0#1 0#4 0#4 1#7) ∧
    decodeWord .t32 0xEC300A01#32 = .ok (.undefT2Puw001 0#1 0#4 0#4 1#8) ∧
    decodeWord .t32 0xEDB00A01#32 = .ok (.undefT2Puw111 0#1 0#4 0#4 1#8) := by decide

/-- Q5 to Q8 and their counterparts of the classes A2 and T2 (the masks of 30_encoding.md R62): the redirect rows. -/
theorem test_decode_redirects :
    decodeWord .a32 0xED100B02#32 = .ok (.seeVldrA1 14#4 0#1 0#1 0#4 0#4 1#7) ∧
    decodeWord .a32 0xED900B02#32 = .ok (.seeVldrA1 14#4 1#1 0#1 0#4 0#4 1#7) ∧
    decodeWord .a32 0xEC100B02#32 = .ok (.seeMov64A1 14#4 0#1 0#4 0#4 1#7) ∧
    decodeWord .a32 0xEC900B03#32 = .ok (.seeFldmxA32 14#4 0#1 1#1 0#1 0#1 0#4 0#4 1#7) ∧
    decodeWord .a32 0xED100A02#32 = .ok (.seeVldrA2 14#4 0#1 0#1 0#4 0#4 2#8) ∧
    decodeWord .a32 0xEC100A02#32 = .ok (.seeMov64A2 14#4 0#1 0#4 0#4 2#8) ∧
    decodeWord .t32 0xED100B02#32 = .ok (.seeVldrT1 0#1 0#1 0#4 0#4 1#7) ∧
    decodeWord .t32 0xEC100B02#32 = .ok (.seeMov64T1 0#1 0#4 0#4 1#7) ∧
    decodeWord .t32 0xED900A02#32 = .ok (.seeVldrT2 1#1 0#1 0#4 0#4 2#8) ∧
    decodeWord .t32 0xEC100A02#32 = .ok (.seeMov64T2 0#1 0#4 0#4 2#8) ∧
    decodeWord .t32 0xEC900B03#32 = .ok (.seeFldmxT32 0#1 1#1 0#1 0#1 0#4 0#4 1#7) := by decide

/-- Q9 to Q12, and the 16-bit halfword of 30_encoding.md R66: what the decoder rejects. -/
theorem test_decode_rejects :
    decodeWord .a32 0xFC900B02#32 = .error .cond1111 ∧ decodeWord .a32 0xEC800B02#32 = .error .noDiagram ∧
    decodeWord .t32 0xEC800B02#32 = .error .noDiagram ∧ decodeWord .a32 0xEC900902#32 = .error .noDiagram ∧
    decodeWord .t32 0xEC900902#32 = .error .noDiagram ∧ decodeWord .t32 0xFC900B02#32 = .error .noDiagram ∧
    decode .t32 [0x00#8, 0xBF#8, 0x00#8, 0x00#8] = .error .shortT32 ∧
    decode .a32 [0x02#8, 0x0B#8, 0x90#8] = .error .truncated := by decide

/-- E1 as a word of the opcode table: read as T32, since bits 31:25 are the fixed pattern of the T32 rows (log 28). -/
theorem test_decodeTableWord :
    decodeTableWord 32 0x0C900B02 = some (.vldmA1 0#4 0#1 0#1 0#4 0#4 1#7) ∧
    decodeTableWord 32 0xEC900B02 = some (.vldmT1 0#1 0#1 0#4 0#4 1#7) ∧
    decodeTableWord 32 0xFC900B02 = none := by decide

/-! ## Execution (95_test_vectors.md section 2.2) -/

/-- The launch state of V1. -/
def v1 : State :=
  withBytes (writeReg plain 0#4 0x1000#32) 0x1000#32 [0x00#8, 0x11#8, 0x22#8, 0x33#8, 0x44#8, 0x55#8, 0x66#8, 0x77#8]

/-- V1, little-endian. -/
theorem test_v1_little :
    (nextState (run 0xEC900B02#32 v1)).map (fun t => (readD t 0, readS t 0, readS t 1, readReg t 0#4, t.pc)) =
      some (0x7766554433221100#64, 0x33221100#32, 0x77665544#32, 0x1000#32, 0x8004#32) := by decide

/-- V1, big-endian. -/
theorem test_v1_big :
    (nextState (run 0xEC900B02#32 { v1 with bigEndian := true })).map
        (fun t => (readD t 0, readS t 0, readS t 1, readReg t 0#4)) =
      some (0x0011223344556677#64, 0x44556677#32, 0x00112233#32, 0x1000#32) := by decide

/-- V3: Decrement Before, registers above 15. -/
theorem test_v3 :
    (nextState (run 0xED720B04#32 (withBytes (writeReg plain 2#4 0x2020#32) 0x2000#32 (ramp 0x80 0x20)))).map
        (fun t => (readD t 16, readD t 17, readReg t 2#4, readS t 0)) =
      some (0x9796959493929190#64, 0x9F9E9D9C9B9A9998#64, 0x2010#32, 0#32) := by decide

/-- The launch state of V4. -/
def v4 : State :=
  withBytes (writeD (writeD (writeReg plain 3#4 0x3000#32) 0 0xDEADBEEF00000000#64) 1 0xDEADBEEF01010101#64) 0x3000#32
    (ramp 0x30 12)

/-- V4, little-endian: odd start, the other half kept. -/
theorem test_v4_little :
    (nextState (run 0xECD30A03#32 v4)).map (fun t => (readD t 0, readD t 1, readReg t 3#4)) =
      some (0x3332313000000000#64, 0x3B3A393837363534#64, 0x3000#32) := by decide

/-- V4, big-endian: the words are not reordered. -/
theorem test_v4_big :
    (nextState (run 0xECD30A03#32 { v4 with bigEndian := true })).map (fun t => (readD t 0, readD t 1)) =
      some (0x3031323300000000#64, 0x38393A3B34353637#64) := by decide

/-- V5: VLDMDB of one `S` register. -/
theorem test_v5 :
    (nextState (run 0xED7DFA01#32 (withBytes (writeReg plain 13#4 0x8004#32) 0x8000#32
        [0xEF#8, 0xBE#8, 0xAD#8, 0xDE#8]))).map (fun t => (readS t 31, readS t 30, readReg t 13#4, t.pc)) =
      some (0xDEADBEEF#32, 0#32, 0x8000#32, 0x8004#32) := by decide

/-- V6: the PC as base reads `pc + 8`. -/
theorem test_v6 :
    (nextState (run 0xEC9F0B02#32 (withBytes plain 0x8008#32 (ramp 0x10 8)))).map (fun t => (readD t 0, t.pc)) =
      some (0x1716151413121110#64, 0x8004#32) := by decide

/-- V7: NE with `Z = 1` does nothing but advance `pc`. -/
theorem test_v7 :
    nextState (run 0x1CD4FB02#32 { plain with flagZ := true }) =
      some { plain with flagZ := true, pc := 0x8004#32 } := by decide

/-- V9: a range that ends at 2^32 is loaded and the base wraps. -/
theorem test_v9_top :
    (nextState (run 0xECB00B02#32 (withBytes (writeReg plain 0#4 0xFFFFFFF8#32) 0xFFFFFFF8#32 (ramp 0xF0 8)))).map
        (fun t => (readD t 0, readReg t 0#4)) = some (0xF7F6F5F4F3F2F1F0#64, 0#32) := by decide

/-- V9: ranges that cross 2^32 are refused; so is a Decrement Before from a base of 0 (40_vldm.md R78). -/
theorem test_v9_refused :
    refusalOf (run 0xEC900B02#32 (writeReg plain 0#4 0xFFFFFFFC#32)) = some .addressWrap ∧
    refusalOf (run 0xED300B02#32 (writeReg plain 0#4 4#32)) = some .addressWrap ∧
    refusalOf (run 0xED300B02#32 (writeReg plain 0#4 0#32)) = some .addressWrap := by decide

/-- V9: a Decrement Before that reaches address 0 exactly is loaded. -/
theorem test_v9_bottom :
    (nextState (run 0xED300B02#32 (withBytes (writeReg plain 0#4 8#32) 0#32 (ramp 0 8)))).map
        (fun t => (readD t 0, readReg t 0#4)) = some (0x0706050403020100#64, 0#32) := by decide

/-- V10: T32, big-endian, Decrement Before. -/
theorem test_v10 :
    (nextState (run 0xED3D8B04#32 { withBytes (writeReg thumb 13#4 0x9010#32) 0x9000#32 (ramp 0 16) with
        bigEndian := true })).map (fun t => (readD t 8, readD t 9, readReg t 13#4)) =
      some (0x0001020304050607#64, 0x08090A0B0C0D0E0F#64, 0x9000#32) := by decide

/-- V11: EQ from the `it_cond` input with `Z = 0` fails; the input is used up. -/
theorem test_v11 :
    nextState (run 0xECB00B20#32 { thumb with itConds := [0#4, 1#4] }) =
      some { thumb with itConds := [1#4], pc := 0x8004#32 } := by decide

/-- P3, second instruction: VLDMDB_T2 under `E = 1`. -/
theorem test_p3_vldmdbT2 :
    (nextState (run 0xED35FA02#32 { withBytes (writeReg thumb 5#4 0x6010#32) 0x6000#32 (ramp 0xE0 16) with
        bigEndian := true })).map (fun t => (readS t 30, readS t 31, readReg t 5#4)) =
      some (0xE8E9EAEB#32, 0xECEDEEEF#32, 0x6008#32) := by decide

/-- The example of 40_vldm.md R83 with `imm8 = 2`: VLDM_T2 without writeback. -/
theorem test_r83_vldmT2 :
    (nextState (run 0xEC940A02#32 (withBytes (writeReg thumb 4#4 0x5000#32) 0x5000#32 (ramp 0 8)))).map
        (fun t => (readS t 0, readS t 1, readReg t 4#4)) =
      some (0x03020100#32, 0x07060504#32, 0x5000#32) := by decide

/-! ## Faults and refusals (95_test_vectors.md sections 2.3, 2.4) -/

/-- X1: misaligned bases, nothing changed. -/
theorem test_x1 :
    faultOf (run 0xEC900B02#32 (writeReg plain 0#4 0x1002#32)) =
      some (.dataAbort .alignment 0x1002#32 (writeReg plain 0#4 0x1002#32)) ∧
    faultOf (run 0xED720B04#32 (writeReg plain 2#4 0x2022#32)) =
      some (.dataAbort .alignment 0x2012#32 (writeReg plain 2#4 0x2022#32)) := by decide

/-- The launch state of X2. -/
def x2 : State :=
  withBytes (writeReg (writeD { plain with admitted := some [⟨0x1000, 8⟩] } 2 0xAA#64) 0#4 0x1000#32) 0x1000#32 (ramp 0 8)

/-- X2: the word that is not admitted aborts with its address; the base and the registers outside the list are kept. -/
theorem test_x2 :
    (match faultOf (run 0xECB00B04#32 x2) with
      | some (.dataAbort kind addr left) => some (kind, addr, readReg left 0#4, left.pc, readD left 2, left.draws)
      | _ => none) = some (.other, 0x1008#32, 0x1000#32, 0x8000#32, 0xAA#64, 2) := by decide

/-- X3: the register file disabled or trapped. -/
theorem test_x3 :
    faultOf (run 0xEC900B02#32 { plain with fpGrant := some .undefined }) =
      some (.undefinedInstruction 0x8000#32 { plain with fpGrant := some .undefined }) ∧
    faultOf (run 0xEC900B02#32 { plain with fpGrant := some .hypTrap }) =
      some (.hypTrap 0x8000#32 { plain with fpGrant := some .hypTrap }) := by decide

/-- X4: the order of the checks. -/
theorem test_x4 :
    faultOf (run 0xEC900B02#32 (writeReg { plain with fpGrant := some .hypTrap } 0#4 0x1002#32)) =
      some (.hypTrap 0x8000#32 (writeReg { plain with fpGrant := some .hypTrap } 0#4 0x1002#32)) ∧
    faultOf (run 0xEC300B02#32 { plain with fpGrant := some .hypTrap }) =
      some (.undefinedInstruction 0x8000#32 { plain with fpGrant := some .hypTrap }) ∧
    nextState (run 0x1C300B02#32 { plain with flagZ := true }) =
      some { plain with flagZ := true, pc := 0x8004#32 } := by decide

/-- Q1 to Q4 in both instruction sets: each UNDEFINED row raises. -/
theorem test_undefined_rows :
    ([0xEC300B02#32, 0xEDB00B02#32, 0xEC300A01#32, 0xEDB00A01#32] : List (BitVec 32)).all (fun w =>
      faultOf (run w plain) == some (.undefinedInstruction 0x8000#32 plain) &&
      faultOf (run w thumb) == some (.undefinedInstruction 0x8000#32 thumb)) = true := by decide

/-- Q5 to Q8 in both instruction sets: the redirect rows are refused by name. -/
theorem test_redirect_rows :
    refusalOf (run 0xED100B02#32 plain) = some (.notThisInstruction .vldr) ∧
    refusalOf (run 0xED900B02#32 thumb) = some (.notThisInstruction .vldr) ∧
    refusalOf (run 0xEC100B02#32 plain) = some (.notThisInstruction .move64) ∧
    refusalOf (run 0xEC100A02#32 thumb) = some (.notThisInstruction .move64) ∧
    refusalOf (run 0xEC900B03#32 plain) = some (.notThisInstruction .fldmx) ∧
    refusalOf (run 0xEC900B03#32 thumb) = some (.notThisInstruction .fldmx) := by decide

/-- X10 to X12: the PC as base. -/
theorem test_x10_x12 :
    refusalOf (run 0xECBF0B02#32 plain) = some .unpredictablePcBase ∧
    refusalOf (run 0xED3F0B02#32 plain) = some .unpredictablePcBase ∧
    refusalOf (run 0xEC9F0B02#32 thumb) = some .unpredictablePcBase := by decide

/-- X13 to X17: the empty list. -/
theorem test_x13_x17 :
    refusalOf (run 0xEC900B00#32 plain) = some .unpredictableEmptyList ∧
    refusalOf (run 0xEC900A00#32 plain) = some .unpredictableEmptyList ∧
    faultOf (run 0xEC900B00#32 { plain with cuRegs0 := some .undef }) =
      some (.undefinedInstruction 0x8000#32 { plain with cuRegs0 := some .undef }) ∧
    nextState (run 0xECB00B00#32 { plain with cuRegs0 := some .nop, fpGrant := none }) =
      some { plain with cuRegs0 := some .nop, fpGrant := none, pc := 0x8004#32 } ∧
    nextState (run 0xECB00B00#32 { plain with cuRegs0 := some .loadNone }) =
      some { plain with cuRegs0 := some .loadNone, pc := 0x8004#32 } := by decide

/-- X18 to X20 and X22 to X24: the register range check, left open, `Nop` and `Undef`. -/
theorem test_x18_x24 :
    nextState (run 0xECD0EB06#32 { plain with cuRange := some .nop }) =
      some { plain with cuRange := some .nop, pc := 0x8004#32 } ∧
    ([0xECD0EB06#32, 0xEC900B22#32, 0xEC90FA03#32, 0xEC900A21#32] : List (BitVec 32)).all (fun w =>
      refusalOf (run w plain) == some .unpredictableRange &&
      faultOf (run w { plain with cuRange := some .undef }) ==
        some (.undefinedInstruction 0x8000#32 { plain with cuRange := some .undef })) = true := by decide

/-! ## The step -/

/-- P1, first instruction, fetched from memory. -/
theorem test_step_a32 :
    (nextState (step (withBytes (withBytes (writeReg plain 0#4 0x1000#32) 0x1000#32 (ramp 0 16)) 0x8000#32
        [0x04#8, 0x0B#8, 0xB0#8, 0xEC#8]))).map (fun t => (readD t 0, readD t 1, readReg t 0#4, t.pc)) =
      some (0x0706050403020100#64, 0x0F0E0D0C0B0A0908#64, 0x1010#32, 0x8004#32) := by decide

/-- P3, first instruction, fetched from memory as two halfwords at an address that is not a multiple of 4. -/
theorem test_step_t32 :
    (nextState (step { withBytes (withBytes (writeReg { thumb with pc := 0x102#32 } 5#4 0x6000#32) 0x6000#32
        (ramp 0xE0 16)) 0x102#32 [0xF5#8, 0xEC#8, 0x04#8, 0xEB#8] with bigEndian := true })).map
        (fun t => (readD t 30, readD t 31, readReg t 5#4, t.pc)) =
      some (0xE0E1E2E3E4E5E6E7#64, 0xE8E9EAEBECEDEEEF#64, 0x6010#32, 0x106#32) := by decide

/-- A placed word of the opcode table is run by the next step from reset: E1 in T32 comes to the enable check; in A32, with
EQ and `Z = 0`, it is skipped. -/
theorem test_withFetchWord :
    (nextState (step ({ State.reset with fpGrant := some .enabled, admitted := some [⟨0, 2 ^ 32⟩] }.withFetchWord 32
      0xEC900B02))).map (fun t => (t.pc, t.iset, readD t 0)) = some (4#32, .t32, 0x0B02EC90#64) ∧
    (nextState (step (State.reset.withFetchWord 32 0x0C900B02))).map (fun t => (t.pc, t.iset)) =
      some (4#32, .a32) := by decide

/-- A misaligned `pc` is refused (10_state.md R22). -/
theorem test_pc_misaligned :
    refusalOf (step { plain with pc := 0x8002#32 }) = some .pcMisaligned ∧
    refusalOf (step { thumb with pc := 0x8001#32 }) = some .pcMisaligned := by decide

/-! ## Witnesses: the hypotheses of each statement can be met

Each theorem meets all hypotheses of one statement, or of one clause of it, by a concrete state and operands; boundary
values where a clause has a range. -/

/-- E2 as an instruction. -/
def ia : Instr := .vldmA1 14#4 0#1 1#1 1#4 2#4 4#7

/-- E3 as an instruction. -/
def db : Instr := .vldmdbA1 14#4 1#1 2#4 0#4 2#7

/-- E4 as an instruction. -/
def singles : Instr := .vldmA2 14#4 1#1 0#1 3#4 0#4 3#8

/-- E14 as an instruction. -/
def wide : Instr := .vldmT1 1#1 1#1 5#4 14#4 2#7

theorem test_hyp_EncodedInstructionDecodesToItself : ia.wf = true ∧ wide.wf = true := by decide

theorem test_hyp_DecodedBytesEncodeBack :
    decode .a32 [0x08#8, 0x2B#8, 0xB1#8, 0xEC#8] = .ok ia ∧
    decode .t32 [0xF5#8, 0xEC#8, 0x04#8, 0xEB#8] = .ok wide := by decide

theorem test_hyp_OtherWordsAreNotInSpec :
    (0xFC900B02#32).extractLsb' 28 4 = 15#4 ∧ (0xEC900902#32).extractLsb' 28 4 ≠ 15#4 := by decide

theorem test_hyp_ShortT32HalfwordsAreRejected :
    (0xBF#8).extractLsb' 3 5 ≠ 0b11101#5 ∧ (0xBF#8).extractLsb' 3 5 ≠ 0b11110#5 ∧
    (0xBF#8).extractLsb' 3 5 ≠ 0b11111#5 := by decide

/-- Each of the eight values of `PUW` in a word that fits a diagram (Q7, Q1, E1, E2, Q5, E3, Q6, Q2). -/
theorem test_hyp_PuwSelectsTheOutcome :
    (FitsDiagram .a32 0xEC100B02#32 ∧ FitsDiagram .a32 0xEC300B02#32 ∧ FitsDiagram .a32 0xEC900B02#32 ∧
     FitsDiagram .a32 0xECB12B08#32 ∧ FitsDiagram .a32 0xED100B02#32 ∧ FitsDiagram .a32 0xED720B04#32 ∧
     FitsDiagram .a32 0xED900B02#32 ∧ FitsDiagram .a32 0xEDB00B02#32) ∧
    FitsDiagram .t32 0xEC940A20#32 ∧ FitsDiagram .t32 0xECF5EB04#32 := by
  refine ⟨⟨?_, ?_, ?_, ?_, ?_, ?_, ?_, ?_⟩, ?_, ?_⟩ <;>
  · unfold FitsDiagram
    decide

theorem test_hyp_DecodeValuesOfBothBlocks :
    (decodeWord .a32 0xECB12B08#32 = .ok ia ∧ ia.transfer = some (transferD true true 0#1 1#4 2#4 4#7)) ∧
    (decodeWord .a32 0xECD30A03#32 = .ok singles ∧
      singles.transfer = some (transferS true false 1#1 3#4 0#4 3#8)) := by decide

/-- A state whose `pc` holds the bytes of E2. -/
def fetching : State := withBytes plain 0x8000#32 [0x08#8, 0x2B#8, 0xB1#8, 0xEC#8]

theorem test_hyp_StepRunsTheDecodedInstruction :
    PcAligned fetching ∧ ia.wf = true ∧ decode fetching.iset (fetchBytes fetching) = .ok ia := by
  unfold PcAligned
  decide

/-- Clauses 1 and 2 at the smallest misalignment; clause 3 by a step that completes. -/
theorem test_hyp_StepChecksPcAlignment :
    ({ plain with pc := 2#32 }.iset = .a32 ∧ { plain with pc := 2#32 }.pc.extractLsb' 0 2 ≠ 0#2) ∧
    ({ thumb with pc := 1#32 }.iset = .t32 ∧ { thumb with pc := 1#32 }.pc.extractLsb' 0 1 ≠ 0#1) ∧
    (nextState (step fetching)).isSome = true := by decide

theorem test_hyp_RejectedBytesRefuseTheStep :
    (PcAligned plain ∧ decode plain.iset (fetchBytes plain) = .error .noDiagram) ∧
    (PcAligned (withBytes plain 0x8003#32 [0xF0#8]) ∧ (withBytes plain 0x8003#32 [0xF0#8]).iset = .a32 ∧
      (readByte (withBytes plain 0x8003#32 [0xF0#8]) ((withBytes plain 0x8003#32 [0xF0#8]).pc + 3#32)).extractLsb' 4 4 =
        15#4) := by
  unfold PcAligned
  decide

theorem test_hyp_PlacedWordIsRunByTheNextStep :
    State.reset.mem.wf = true ∧ decodeTableWord 32 0xECF5EB04 = some wide := by decide

theorem test_hyp_ConditionTable :
    { thumb with itConds := [0#4] }.itConds = 0#4 :: [] ∧ thumb.itConds = [] := by decide

/-- A VLDM, an UNDEFINED and a redirect row whose condition fails; A32 and T32. -/
theorem test_hyp_FailedConditionOnlyAdvancesPc :
    ((Instr.vldmA1 0#4 0#1 1#1 1#4 2#4 4#7).redirect ≠ some .fldmx ∧
      condOk (Instr.vldmA1 0#4 0#1 1#1 1#4 2#4 4#7).condSource plain = some false) ∧
    ((Instr.undefA2Puw111 0#4 0#1 1#4 2#4 4#8).redirect ≠ some .fldmx ∧
      condOk (Instr.undefA2Puw111 0#4 0#1 1#4 2#4 4#8).condSource plain = some false) ∧
    ((Instr.seeVldrT1 0#1 0#1 1#4 2#4 4#7).redirect ≠ some .fldmx ∧
      condOk (Instr.seeVldrT1 0#1 0#1 1#4 2#4 4#7).condSource { thumb with itConds := [0#4] } = some false) := by
  decide

/-- `PUW = 001` and `111` in a diagram; a passed, a failed and an absent condition. -/
theorem test_hyp_UndefinedEncodingsRaiseWhenConditionPasses :
    (FitsDiagram .a32 0xEC300B02#32 ∧ (0xEC300B02#32).extractLsb' 24 1 = (0xEC300B02#32).extractLsb' 23 1 ∧
      (0xEC300B02#32).extractLsb' 21 1 = 1#1) ∧
    (FitsDiagram .t32 0xEDB00A01#32 ∧ (0xEDB00A01#32).extractLsb' 24 1 = (0xEDB00A01#32).extractLsb' 23 1 ∧
      (0xEDB00A01#32).extractLsb' 21 1 = 1#1) ∧
    ((Instr.undefT2Puw111 0#1 0#4 0#4 1#8).isUndefined = true ∧
      condOk (Instr.undefT2Puw111 0#1 0#4 0#4 1#8).condSource thumb = some true) ∧
    ((Instr.undefA1Puw001 1#4 0#1 0#4 0#4 1#7).isUndefined = true ∧
      condOk (Instr.undefA1Puw001 1#4 0#1 0#4 0#4 1#7).condSource { plain with flagZ := true } ≠ some true) := by
  unfold FitsDiagram
  decide

theorem test_hyp_SeeRowsAreRefusedByName :
    (Instr.seeVldrA1 14#4 0#1 0#1 0#4 0#4 1#7).redirect = some .vldr ∧ OtherInstr.vldr ≠ .fldmx ∧
    condOk (Instr.seeVldrA1 14#4 0#1 0#1 0#4 0#4 1#7).condSource plain = some true := by decide

theorem test_hyp_FldmxWordsAreRefusedByName :
    (0xEC900B03#32 &&& 0x0E100F01#32 = 0x0C100B01#32 ∧ (0xEC900B03#32).extractLsb' 28 4 ≠ 15#4) ∧
    0xEC900B03#32 &&& 0xFE100F01#32 = 0xEC100B01#32 := by decide

/-- X10 (writeback in A32), X12 (T32 without writeback), and the defined use V6. -/
theorem test_hyp_PcBaseIsRefusedOrReadsAhead :
    ((Instr.vldmA1 14#4 0#1 1#1 15#4 0#4 1#7).transfer = some (transferD true true 0#1 15#4 0#4 1#7) ∧
      condOk (Instr.vldmA1 14#4 0#1 1#1 15#4 0#4 1#7).condSource plain = some true ∧
      (transferD true true 0#1 15#4 0#4 1#7).n = 15#4 ∧ (transferD true true 0#1 15#4 0#4 1#7).wback = true) ∧
    ((Instr.vldmT1 0#1 0#1 15#4 0#4 1#7).transfer = some (transferD true false 0#1 15#4 0#4 1#7) ∧
      condOk (Instr.vldmT1 0#1 0#1 15#4 0#4 1#7).condSource thumb = some true ∧
      (transferD true false 0#1 15#4 0#4 1#7).n = 15#4 ∧ thumb.iset ≠ .a32) ∧
    ((transferD true false 0#1 15#4 0#4 1#7).n = 15#4 ∧ (transferD true false 0#1 15#4 0#4 1#7).add = true) := by
  decide

/-- X16 as an instruction. -/
def empty : Instr := .vldmA1 14#4 0#1 1#1 0#4 0#4 0#7

theorem test_hyp_EmptyListFollowsCuRegs0 :
    (empty.transfer = some (transferD true true 0#1 0#4 0#4 0#7) ∧ condOk empty.condSource plain = some true ∧
      ¬ ((transferD true true 0#1 0#4 0#4 0#7).n = 15#4 ∧
        ((transferD true true 0#1 0#4 0#4 0#7).wback = true ∨ plain.iset ≠ .a32)) ∧
      (transferD true true 0#1 0#4 0#4 0#7).regs = 0 ∧ plain.cuRegs0 = none) ∧
    condOk empty.condSource { plain with cuRegs0 := some .nop } = some true ∧
    condOk empty.condSource { plain with cuRegs0 := some .undef } = some true ∧
    (condOk empty.condSource { plain with cuRegs0 := some .loadNone } = some true ∧
      fpAccess { plain with cuRegs0 := some .loadNone } = .enabled) ∧
    fpAccess { plain with cuRegs0 := some .loadNone, fpGrant := some .undefined } = .undefined ∧
    fpAccess { plain with cuRegs0 := some .loadNone, fpGrant := some .hypTrap } = .hypTrap := by decide

/-- X19 (`d + regs = 33`), X18 (`regs = 17`, the first value above 16) and X24 (33 `S` registers), under each value of
`CU_RANGE`. -/
theorem test_hyp_LongListFollowsCuRange :
    ((Instr.vldmA1 14#4 1#1 0#1 0#4 14#4 3#7).transfer = some (transferD true false 1#1 0#4 14#4 3#7) ∧
      condOk (Instr.vldmA1 14#4 1#1 0#1 0#4 14#4 3#7).condSource plain = some true ∧
      ¬ ((transferD true false 1#1 0#4 14#4 3#7).n = 15#4 ∧
        ((transferD true false 1#1 0#4 14#4 3#7).wback = true ∨ plain.iset ≠ .a32)) ∧
      32 < (transferD true false 1#1 0#4 14#4 3#7).d + (transferD true false 1#1 0#4 14#4 3#7).regs) ∧
    ((transferD true false 0#1 0#4 0#4 17#7).singleRegs = false ∧ 16 < (transferD true false 0#1 0#4 0#4 17#7).regs) ∧
    32 < (transferS true false 0#1 0#4 0#4 33#8).d + (transferS true false 0#1 0#4 0#4 33#8).regs ∧
    plain.cuRange = none ∧ { plain with cuRange := some .nop }.cuRange = some .nop ∧ { plain with cuRange := some .undef }.cuRange = some .undef ∧
    { plain with cuRange := some .unknown }.cuRange = some .unknown := by decide

theorem test_hyp_EnableCheckDecidesBeforeTheBase :
    ia.transfer = some (transferD true true 0#1 1#4 2#4 4#7) ∧
    (ChecksPass ia (transferD true true 0#1 1#4 2#4 4#7) { plain with fpGrant := some .undefined } ∧
      fpAccess { plain with fpGrant := some .undefined } = .undefined) ∧
    (ChecksPass ia (transferD true true 0#1 1#4 2#4 4#7) { plain with fpGrant := some .hypTrap } ∧
      fpAccess { plain with fpGrant := some .hypTrap } = .hypTrap) := by
  unfold ChecksPass
  decide

/-- The first base that crosses, for both modes: `2^32 - 28` for 32 bytes upward, and 15 and 0 for 16 bytes downward. -/
theorem test_hyp_RangeAcrossTopIsRefused :
    (ia.transfer = some (transferD true true 0#1 1#4 2#4 4#7) ∧
      ChecksPass ia (transferD true true 0#1 1#4 2#4 4#7) (writeReg plain 1#4 0xFFFFFFE4#32) ∧
      FpEnabled (writeReg plain 1#4 0xFFFFFFE4#32) ∧
      2 ^ 32 < (baseAddr (transferD true true 0#1 1#4 2#4 4#7) (writeReg plain 1#4 0xFFFFFFE4#32)).toNat +
        (transferD true true 0#1 1#4 2#4 4#7).imm32.toNat) ∧
    (db.transfer = some (transferD false true 1#1 2#4 0#4 2#7) ∧
      ChecksPass db (transferD false true 1#1 2#4 0#4 2#7) (writeReg plain 2#4 1#32) ∧
      FpEnabled (writeReg plain 2#4 1#32) ∧ (transferD false true 1#1 2#4 0#4 2#7).add = false ∧
      (readReg (writeReg plain 2#4 0#32) 2#4).toNat < (transferD false true 1#1 2#4 0#4 2#7).imm32.toNat ∧
      (readReg (writeReg plain 2#4 15#32) 2#4).toNat < (transferD false true 1#1 2#4 0#4 2#7).imm32.toNat) := by
  unfold ChecksPass FpEnabled
  decide

/-- The launch premises of a VLDM, met by `plain` for any words of the address space. -/
theorem reads_plain (s : State) (h : s.admitted = some [⟨0, 2 ^ 32⟩]) (base : Word) (count : Nat)
    (ha : wordAligned base = true) (hc : base.toNat + 4 * count ≤ 2 ^ 32) : ReadsAllowed s base count := by
  refine ⟨ha, hc, fun j hj => ?_⟩
  have : (base + BitVec.ofNat 32 (4 * j)).toNat = base.toNat + 4 * j := by
    rw [BitVec.toNat_add, BitVec.toNat_ofNat]
    omega
  simp only [memAdmit, h, List.any_cons, List.any_nil, Bool.or_false, this, Nat.zero_le, decide_true, Bool.true_and,
    Nat.zero_add, decide_eq_true_eq]
  omega

theorem test_hyp_RangeUpToTopWrapsTheBase :
    ia.transfer = some (transferD true true 0#1 1#4 2#4 4#7) ∧
    ChecksPass ia (transferD true true 0#1 1#4 2#4 4#7) (writeReg plain 1#4 0xFFFFFFE0#32) ∧
    FpEnabled (writeReg plain 1#4 0xFFFFFFE0#32) ∧ (transferD true true 0#1 1#4 2#4 4#7).add = true ∧
    (transferD true true 0#1 1#4 2#4 4#7).wback = true ∧
    (readReg (writeReg plain 1#4 0xFFFFFFE0#32) (transferD true true 0#1 1#4 2#4 4#7).n).toNat +
      (transferD true true 0#1 1#4 2#4 4#7).imm32.toNat = 2 ^ 32 ∧
    ReadsAllowed (writeReg plain 1#4 0xFFFFFFE0#32)
      (readReg (writeReg plain 1#4 0xFFFFFFE0#32) (transferD true true 0#1 1#4 2#4 4#7).n)
      ((transferD true true 0#1 1#4 2#4 4#7).imm32.toNat / 4) := by
  refine ⟨by decide, by unfold ChecksPass; decide, rfl, rfl, rfl, by decide, ?_⟩
  exact reads_plain _ rfl _ _ (by decide) (by decide)

/-- X1, both modes. -/
theorem test_hyp_MisalignedBaseAborts :
    (ia.transfer = some (transferD true true 0#1 1#4 2#4 4#7) ∧
      ChecksPass ia (transferD true true 0#1 1#4 2#4 4#7) (writeReg plain 1#4 0x1001#32) ∧
      FpEnabled (writeReg plain 1#4 0x1001#32) ∧
      (baseAddr (transferD true true 0#1 1#4 2#4 4#7) (writeReg plain 1#4 0x1001#32)).toNat +
        (transferD true true 0#1 1#4 2#4 4#7).imm32.toNat ≤ 2 ^ 32 ∧
      (readReg (writeReg plain 1#4 0x1001#32) 1#4).extractLsb' 0 2 ≠ 0#2) ∧
    (db.transfer = some (transferD false true 1#1 2#4 0#4 2#7) ∧
      ChecksPass db (transferD false true 1#1 2#4 0#4 2#7) (writeReg plain 2#4 0x2022#32) ∧
      FpEnabled (writeReg plain 2#4 0x2022#32) ∧
      (baseAddr (transferD false true 1#1 2#4 0#4 2#7) (writeReg plain 2#4 0x2022#32)).toNat +
        (transferD false true 1#1 2#4 0#4 2#7).imm32.toNat ≤ 2 ^ 32 ∧
      (readReg (writeReg plain 2#4 0x2022#32) 2#4).extractLsb' 0 2 ≠ 0#2) := by
  unfold ChecksPass FpEnabled
  decide

/-- X2: the third of four words is not admitted; the first below a base; and an `S` list whose last of three words is not. -/
theorem test_hyp_RejectedWordAborts :
    ((Instr.vldmA1 14#4 0#1 1#1 0#4 0#4 2#7).transfer = some (transferD true true 0#1 0#4 0#4 2#7) ∧
      ChecksPass (.vldmA1 14#4 0#1 1#1 0#4 0#4 2#7) (transferD true true 0#1 0#4 0#4 2#7) x2 ∧ FpEnabled x2 ∧
      (baseAddr (transferD true true 0#1 0#4 0#4 2#7) x2).toNat + (transferD true true 0#1 0#4 0#4 2#7).imm32.toNat ≤
        2 ^ 32 ∧ wordAligned (baseAddr (transferD true true 0#1 0#4 0#4 2#7) x2) = true ∧
      2 < (transferD true true 0#1 0#4 0#4 2#7).imm32.toNat / 4 ∧
      MemAdmitted x2 (baseAddr (transferD true true 0#1 0#4 0#4 2#7) x2) 2 ∧
      memAdmit x2 (baseAddr (transferD true true 0#1 0#4 0#4 2#7) x2 + BitVec.ofNat 32 (4 * 2)) = false) ∧
    ((Instr.vldmdbA1 14#4 0#1 0#4 0#4 2#7).transfer = some (transferD false true 0#1 0#4 0#4 2#7) ∧
      ChecksPass (.vldmdbA1 14#4 0#1 0#4 0#4 2#7) (transferD false true 0#1 0#4 0#4 2#7) x2 ∧
      (transferD false true 0#1 0#4 0#4 2#7).imm32.toNat ≤ (readReg x2 (transferD false true 0#1 0#4 0#4 2#7).n).toNat ∧
      MemAdmitted x2 (baseAddr (transferD false true 0#1 0#4 0#4 2#7) x2) 0 ∧
      memAdmit x2 (baseAddr (transferD false true 0#1 0#4 0#4 2#7) x2 + BitVec.ofNat 32 (4 * 0)) = false) ∧
    ((Instr.vldmA2 14#4 0#1 0#1 0#4 0#4 3#8).transfer = some (transferS true false 0#1 0#4 0#4 3#8) ∧
      ChecksPass (.vldmA2 14#4 0#1 0#1 0#4 0#4 3#8) (transferS true false 0#1 0#4 0#4 3#8) x2 ∧
      2 < (transferS true false 0#1 0#4 0#4 3#8).imm32.toNat / 4 ∧
      MemAdmitted x2 (baseAddr (transferS true false 0#1 0#4 0#4 3#8) x2) 2 ∧
      memAdmit x2 (baseAddr (transferS true false 0#1 0#4 0#4 3#8) x2 + BitVec.ofNat 32 (4 * 2)) = false) := by
  unfold ChecksPass FpEnabled MemAdmitted
  decide

/-- The largest list from `D16` (E15), the largest base in reach, and the PC as base without writeback (V6). -/
theorem test_hyp_VldmA1LoadsItsList :
    (condOk (.field 14#4) (writeReg plain 0#4 0xFFFFFF80#32) = some true ∧
      ¬ ((0#4 : BitVec 4) = 15#4 ∧ ((1#1 : BitVec 1) = 1#1 ∨ (writeReg plain 0#4 0xFFFFFF80#32).iset ≠ .a32)) ∧
      1 ≤ (16#7).toNat ∧ (16#7).toNat ≤ 16 ∧ 16 * (1#1).toNat + (0#4).toNat + (16#7).toNat ≤ 32 ∧
      FpEnabled (writeReg plain 0#4 0xFFFFFF80#32) ∧
      ReadsAllowed (writeReg plain 0#4 0xFFFFFF80#32) (readReg (writeReg plain 0#4 0xFFFFFF80#32) 0#4)
        (2 * (16#7).toNat)) ∧
    (¬ ((15#4 : BitVec 4) = 15#4 ∧ ((0#1 : BitVec 1) = 1#1 ∨ plain.iset ≠ .a32)) ∧
      ReadsAllowed plain (readReg plain 15#4) (2 * (1#7).toNat)) := by
  refine ⟨⟨by decide, by decide, by decide, by decide, by decide, rfl, ?_⟩, by decide, ?_⟩
  · exact reads_plain _ rfl _ _ (by decide) (by decide)
  · exact reads_plain _ rfl _ _ (by decide) (by decide)

/-- V3, and the smallest base for two registers, 16, whose list begins at address 0. -/
theorem test_hyp_VldmdbA1LoadsItsList :
    (condOk (.field 14#4) (writeReg plain 2#4 0x2020#32) = some true ∧ (2#4 : BitVec 4) ≠ 15#4 ∧ 1 ≤ (2#7).toNat ∧
      (2#7).toNat ≤ 16 ∧ 16 * (1#1).toNat + (0#4).toNat + (2#7).toNat ≤ 32 ∧
      FpEnabled (writeReg plain 2#4 0x2020#32) ∧ 8 * (2#7).toNat ≤ (readReg (writeReg plain 2#4 0x2020#32) 2#4).toNat ∧
      ReadsAllowed (writeReg plain 2#4 0x2020#32)
        (readReg (writeReg plain 2#4 0x2020#32) 2#4 - BitVec.ofNat 32 (8 * (2#7).toNat)) (2 * (2#7).toNat)) ∧
    (8 * (2#7).toNat ≤ (readReg (writeReg plain 2#4 16#32) 2#4).toNat ∧
      ReadsAllowed (writeReg plain 2#4 16#32)
        (readReg (writeReg plain 2#4 16#32) 2#4 - BitVec.ofNat 32 (8 * (2#7).toNat)) (2 * (2#7).toNat)) := by
  refine ⟨⟨by decide, by decide, by decide, by decide, by decide, rfl, by decide, ?_⟩, by decide, ?_⟩
  · exact reads_plain _ rfl _ _ (by decide) (by decide)
  · exact reads_plain _ rfl _ _ (by decide) (by decide)

/-- E16: all 32 `S` registers. -/
theorem test_hyp_VldmA2LoadsItsList :
    condOk (.field 14#4) plain = some true ∧
    ¬ ((0#4 : BitVec 4) = 15#4 ∧ ((0#1 : BitVec 1) = 1#1 ∨ plain.iset ≠ .a32)) ∧ 1 ≤ (32#8).toNat ∧
    2 * (0#4).toNat + (0#1).toNat + (32#8).toNat ≤ 32 ∧ FpEnabled plain ∧
    ReadsAllowed plain (readReg plain 0#4) (32#8).toNat := by
  refine ⟨by decide, by decide, by decide, by decide, rfl, ?_⟩
  exact reads_plain _ rfl _ _ (by decide) (by decide)

/-- V5. -/
theorem test_hyp_VldmdbA2LoadsItsList :
    condOk (.field 14#4) (writeReg plain 13#4 0x8004#32) = some true ∧ (13#4 : BitVec 4) ≠ 15#4 ∧ 1 ≤ (1#8).toNat ∧
    2 * (15#4).toNat + (1#1).toNat + (1#8).toNat ≤ 32 ∧ FpEnabled (writeReg plain 13#4 0x8004#32) ∧
    4 * (1#8).toNat ≤ (readReg (writeReg plain 13#4 0x8004#32) 13#4).toNat ∧
    ReadsAllowed (writeReg plain 13#4 0x8004#32)
      (readReg (writeReg plain 13#4 0x8004#32) 13#4 - BitVec.ofNat 32 (4 * (1#8).toNat)) (1#8).toNat := by
  refine ⟨by decide, by decide, by decide, by decide, rfl, by decide, ?_⟩
  exact reads_plain _ rfl _ _ (by decide) (by decide)

/-- E6, under a supplied `it_cond` that passes. -/
theorem test_hyp_VldmT1LoadsItsList :
    condOk .itInput { thumb with itConds := [1#4] } = some true ∧ (0#4 : BitVec 4) ≠ 15#4 ∧ 1 ≤ (16#7).toNat ∧
    (16#7).toNat ≤ 16 ∧ 16 * (0#1).toNat + (0#4).toNat + (16#7).toNat ≤ 32 ∧
    FpEnabled { thumb with itConds := [1#4] } ∧
    ReadsAllowed { thumb with itConds := [1#4] } (readReg { thumb with itConds := [1#4] } 0#4) (2 * (16#7).toNat) := by
  refine ⟨by decide, by decide, by decide, by decide, by decide, rfl, ?_⟩
  exact reads_plain _ rfl _ _ (by decide) (by decide)

/-- E7. -/
theorem test_hyp_VldmdbT1LoadsItsList :
    condOk .itInput (writeReg thumb 13#4 0x9010#32) = some true ∧ (13#4 : BitVec 4) ≠ 15#4 ∧ 1 ≤ (2#7).toNat ∧
    (2#7).toNat ≤ 16 ∧ 16 * (0#1).toNat + (8#4).toNat + (2#7).toNat ≤ 32 ∧
    FpEnabled (writeReg thumb 13#4 0x9010#32) ∧
    8 * (2#7).toNat ≤ (readReg (writeReg thumb 13#4 0x9010#32) 13#4).toNat ∧
    ReadsAllowed (writeReg thumb 13#4 0x9010#32)
      (readReg (writeReg thumb 13#4 0x9010#32) 13#4 - BitVec.ofNat 32 (8 * (2#7).toNat)) (2 * (2#7).toNat) := by
  refine ⟨by decide, by decide, by decide, by decide, by decide, rfl, by decide, ?_⟩
  exact reads_plain _ rfl _ _ (by decide) (by decide)

/-- E8. -/
theorem test_hyp_VldmT2LoadsItsList :
    condOk .itInput thumb = some true ∧ (4#4 : BitVec 4) ≠ 15#4 ∧ 1 ≤ (32#8).toNat ∧
    2 * (0#4).toNat + (0#1).toNat + (32#8).toNat ≤ 32 ∧ FpEnabled thumb ∧
    ReadsAllowed thumb (readReg thumb 4#4) (32#8).toNat := by
  refine ⟨by decide, by decide, by decide, by decide, rfl, ?_⟩
  exact reads_plain _ rfl _ _ (by decide) (by decide)

/-- E9. -/
theorem test_hyp_VldmdbT2LoadsItsList :
    condOk .itInput (writeReg thumb 5#4 0x6008#32) = some true ∧ (5#4 : BitVec 4) ≠ 15#4 ∧ 1 ≤ (2#8).toNat ∧
    2 * (15#4).toNat + (0#1).toNat + (2#8).toNat ≤ 32 ∧ FpEnabled (writeReg thumb 5#4 0x6008#32) ∧
    4 * (2#8).toNat ≤ (readReg (writeReg thumb 5#4 0x6008#32) 5#4).toNat ∧
    ReadsAllowed (writeReg thumb 5#4 0x6008#32)
      (readReg (writeReg thumb 5#4 0x6008#32) 5#4 - BitVec.ofNat 32 (4 * (2#8).toNat)) (2#8).toNat := by
  refine ⟨by decide, by decide, by decide, by decide, rfl, by decide, ?_⟩
  exact reads_plain _ rfl _ _ (by decide) (by decide)

/-- E10 and E11: a `D` and an `S` list. -/
theorem test_hyp_VpopIsTheLoadOfItsClass :
    (FitsDiagram .a32 0xECBD8B10#32 ∧ (0xECBD8B10#32).extractLsb' 24 1 = 0#1 ∧
      (0xECBD8B10#32).extractLsb' 23 1 = 1#1 ∧ (0xECBD8B10#32).extractLsb' 21 1 = 1#1 ∧
      (0xECBD8B10#32).extractLsb' 16 4 = 13#4 ∧
      ChecksPass (.vldmA1 14#4 0#1 1#1 13#4 8#4 8#7) (transferD true true 0#1 13#4 8#4 8#7) plain ∧ FpEnabled plain ∧
      ReadsAllowed plain (readReg plain 13#4) ((transferD true true 0#1 13#4 8#4 8#7).imm32.toNat / 4)) ∧
    (FitsDiagram .t32 0xECBD0A01#32 ∧ (0xECBD0A01#32).extractLsb' 16 4 = 13#4 ∧
      ChecksPass (.vldmT2 0#1 1#1 13#4 0#4 1#8) (transferS true true 0#1 13#4 0#4 1#8) thumb) := by
  unfold FitsDiagram ChecksPass
  refine ⟨⟨by decide, by decide, by decide, by decide, by decide, by decide, rfl, ?_⟩, by decide⟩
  exact reads_plain _ rfl _ _ (by decide) (by decide)

/-- The four cases of the memory read: misaligned, not admitted, admitted in either byte order. -/
theorem test_hyp_MemReadChecksThenAssembles :
    (0x1001#32).extractLsb' 0 2 ≠ 0#2 ∧ ((0x1008#32).extractLsb' 0 2 = 0#2 ∧ memAdmit x2 0x1008#32 = false) ∧
    (memAdmit x2 0x1004#32 = true ∧ x2.bigEndian = false) ∧
    (memAdmit { x2 with bigEndian := true } 0x1004#32 = true ∧ { x2 with bigEndian := true }.bigEndian = true) := by
  decide

/-- Both endiannesses. -/
theorem test_hyp_DoubleRegisterIsTheNumberAtItsAddress :
    x2.bigEndian = false ∧ { x2 with bigEndian := true }.bigEndian = true := by decide

/-- The last register with an `S` view, the first without, and the last `S` register. -/
theorem test_hyp_SingleAndDoubleViewsOverlap : 15 ≤ 15 ∧ (16 ≤ 16 ∧ 31 < 32) := by decide

/-- For NoInstructionChangesControlStateOrMemory and PcAdvancesByFourOrStays: a VLDM with writeback, one without, an UNDEFINED row whose condition fails: each answers a next state. -/
theorem test_hyp_frames :
    (nextState (exec ia plain)).isSome = true ∧ (nextState (exec singles plain)).isSome = true ∧
    (nextState (exec (.undefA1Puw001 0#4 0#1 0#4 0#4 1#7) plain)).isSome = true := by decide

theorem test_hyp_OnlyTheBaseRegisterIsUsed :
    (nextState (exec ia plain)).isSome = true ∧ (2#4 : BitVec 4) ≠ 15#4 ∧
    ia.transfer = some (transferD true true 0#1 1#4 2#4 4#7) ∧ (2#4 : BitVec 4) ≠ (transferD true true 0#1 1#4 2#4 4#7).n := by
  decide

/-- Boundary registers: `D1` and `D6` around the list `D2` to `D5`; `S0` and `S4` around `S1` to `S3`. -/
theorem test_hyp_RegistersOutsideTheListAreKept :
    ((nextState (exec ia plain)).isSome = true ∧ ia.transfer = some (transferD true true 0#1 1#4 2#4 4#7) ∧
      (transferD true true 0#1 1#4 2#4 4#7).regs ≤ 16 ∧
      (transferD true true 0#1 1#4 2#4 4#7).d + (transferD true true 0#1 1#4 2#4 4#7).regs ≤ 32 ∧
      1 < (transferD true true 0#1 1#4 2#4 4#7).d ∧
      (transferD true true 0#1 1#4 2#4 4#7).d + (transferD true true 0#1 1#4 2#4 4#7).regs ≤ 6) ∧
    ((nextState (exec singles plain)).isSome = true ∧ singles.transfer = some (transferS true false 1#1 3#4 0#4 3#8) ∧
      (transferS true false 1#1 3#4 0#4 3#8).singleRegs = true ∧ 0 < (transferS true false 1#1 3#4 0#4 3#8).d ∧
      (transferS true false 1#1 3#4 0#4 3#8).d + (transferS true false 1#1 3#4 0#4 3#8).regs ≤ 4) := by decide

/-- A fault of each kind. -/
theorem test_hyp_FaultsArePrecise :
    (faultOf (exec (.undefA1Puw001 14#4 0#1 0#4 0#4 1#7) plain)).isSome = true ∧
    (faultOf (exec ia { plain with fpGrant := some .hypTrap })).isSome = true ∧
    (faultOf (exec ia (writeReg plain 1#4 0x1001#32))).map Fault.isOtherAbort = some false ∧
    (faultOf (exec (.vldmA1 14#4 0#1 1#1 0#4 0#4 2#7) x2)).map Fault.isOtherAbort = some true := by decide

/-- Another memory that agrees on the 32 bytes E2 reads: one byte beyond them differs. -/
theorem test_hyp_OnlyTheListedBytesAreRead :
    ∀ x, ia.transfer = some x → ∀ a : Word, (a - baseAddr x (writeReg plain 1#4 0x1000#32)).toNat < x.imm32.toNat →
      (Memory.write plain.mem 0x1020 7#8).read a.toNat = (writeReg plain 1#4 0x1000#32).mem.read a.toNat := by
  intro x hx a ha
  have hx' : x = transferD true true 0#1 1#4 2#4 4#7 := (Option.some.inj hx).symm
  subst hx'
  have hb : baseAddr (transferD true true 0#1 1#4 2#4 4#7) (writeReg plain 1#4 0x1000#32) = 0x1000#32 := by decide
  have hi : (transferD true true 0#1 1#4 2#4 4#7).imm32.toNat = 32 := by decide
  rw [hb, hi, BitVec.toNat_sub] at ha
  have hlt := a.isLt
  have hne : ¬ (0x1020 : Nat) = a.toNat := by
    intro h
    rw [← h] at ha
    revert ha
    decide
  change Memory.read [(0x1020, 7#8)] a.toNat = Memory.read [] a.toNat
  simp [Memory.read, hne]

/-- Access enabled at launch, and a run of one step that has no fault (for FPEnabledThroughout and `NoFault`). -/
theorem test_hyp_EnabledAtLaunchIsEnabledThroughout :
    FpEnabled fetching ∧ NoFault (runSteps 1 fetching) := by
  refine ⟨rfl, ?_⟩
  have h : (nextState (runSteps 1 fetching)).isSome = true := by decide
  unfold NoFault
  revert h
  cases runSteps 1 fetching <;> simp [nextState]

/-- A run to the address after its one instruction ends there; a run to a later one ends at a refusal before it (R119). -/
theorem test_hyp_RunEndsWhenPcFirstReachesTheNamedAddress :
    ((runTo 0x8004#32 1 fetching).bind nextState).map (fun t => t.pc) = some 0x8004#32 ∧
    (runTo 0x8008#32 5 fetching).bind refusalOf = some (.notInSpec .noDiagram) ∧
    (runTo 0x8008#32 1 fetching).isNone = true := by decide

theorem test_hyp_EveryStepKeepsInv :
    Inv fetching ∧ (nextState (step fetching)).isSome = true := by
  unfold Inv
  decide

end Sys2Proof.Machine.Test
end

/-! SUPPORT. O41, the use of the general-purpose registers (10_state.md R17): what a change of the state that the loops do
not see passes through them, which register a completed instruction writes, and that writes of two registers commute. -/

namespace Sys2Proof.Machine

/-! ### A change of the state that the loops and the draws do not see -/

section Loops

variable {f : State → State}

/-- The loop of an `S` list commutes with a change that no read sees and no write of an `S` register meets. -/
theorem loadListS_map (hread : ∀ x a, memRead (f x) a = memRead x a) (hwrite : ∀ x j v, writeS (f x) j v = f (writeS x j v))
    (count d : Nat) (a : Word) (s : State) : loadListS count d a (f s) = (loadListS count d a s).map f := by
  induction count generalizing d a s with
  | zero => rfl
  | succ count ih =>
    simp only [loadListS, hread]
    cases memRead s a with
    | error e => rfl
    | ok v => simp only [hwrite, ih]

/-- The loop of a `D` list commutes with a change that neither a read nor the byte order sees and no write of a `D` register
meets. -/
theorem loadListD_map (hread : ∀ x a, memRead (f x) a = memRead x a) (hend : ∀ x, (f x).bigEndian = x.bigEndian)
    (hwrite : ∀ x i v, writeD (f x) i v = f (writeD x i v)) (count d : Nat) (a : Word) (s : State) :
    loadListD count d a (f s) = (loadListD count d a s).map f := by
  induction count generalizing d a s with
  | zero => rfl
  | succ count ih =>
    simp only [loadListD, hread, hend]
    cases memRead s a with
    | error e => rfl
    | ok word1 =>
      cases memRead s (a + 4#32) with
      | error e => rfl
      | ok word2 => simp only [hwrite, ih]

/-- Draws over an `S` list commute with a change that one draw commutes with. -/
theorem drawListS_map (hdraw : ∀ x j, drawS (f x) j = f (drawS x j)) (count d : Nat) (s : State) :
    drawListS count d (f s) = f (drawListS count d s) := by
  induction count generalizing d s with
  | zero => rfl
  | succ count ih => simp only [drawListS, hdraw, ih]

/-- Draws over a `D` list commute with a change that one draw commutes with. -/
theorem drawListD_map (hdraw : ∀ x i, drawD (f x) i = f (drawD x i)) (count d : Nat) (s : State) :
    drawListD count d (f s) = f (drawListD count d s) := by
  induction count generalizing d s with
  | zero => rfl
  | succ count ih => simp only [drawListD, hdraw, ih]

end Loops

/-! ### The registers that an instruction writes -/

/-- A list that loads keeps the general-purpose registers. -/
theorem loadList_regs (t : Transfer) (s s' : State) (h : loadList t s = .ok s') : s'.regs = s.regs := by
  unfold loadList at h
  split at h
  · exact (congrArg State.regs (loadListS_frame _ _ _ _ _ h)).trans rfl
  · exact (congrArg State.regs (loadListD_frame _ _ _ _ _ h)).trans rfl

/-- Drawing every `D` register keeps the general-purpose registers. -/
theorem drawAllD_regs (s : State) : (drawAllD s).regs = s.regs :=
  (congrArg State.regs (drawListD_frame 32 0 s)).trans rfl

/-- A completed instruction keeps the general-purpose registers, or it is a VLDM with writeback and writes its base. -/
theorem exec_next_regs (i : Instr) (s u : State) (h : exec i s = .next u) :
    u.regs = s.regs ∨ ∃ t v, i.transfer = some t ∧ t.wback = true ∧ t.n ≠ 15#4 ∧ u.regs = (writeReg s t.n v).regs := by
  rcases exec_next i s u h with rfl | ⟨t, ht, hn, ⟨-, s', hload, rfl⟩ | ⟨-, rfl⟩⟩
  · exact .inl (retire_regs _ _)
  · have hs' := loadList_regs t s s' hload
    by_cases hw : t.wback = true
    · exact .inr ⟨t, backValue t s, ht, hw, fun c => hn ⟨c, hw⟩, by simp [writeBack, hw, hs']⟩
    · exact .inl (by simp [writeBack, hw, hs'])
  · by_cases hw : t.wback = true
    · exact .inr ⟨t, Config.draw32 (drawAllD s).draws, ht, hw, fun c => hn ⟨c, hw⟩, by simp [hw, drawAllD_regs]⟩
    · exact .inl (by simp [hw, drawAllD_regs])

/-- A completed instruction keeps every general-purpose register but the base of a VLDM with writeback. -/
theorem exec_next_readReg (i : Instr) (s u : State) (h : exec i s = .next u) (r : BitVec 4) (h15 : r ≠ 15#4)
    (hr : ∀ t, i.transfer = some t → t.wback = true → r ≠ t.n) : readReg u r = readReg s r := by
  rcases exec_next_regs i s u h with hregs | ⟨t, v, ht, hw, hn, hregs⟩
  · exact readReg_congr _ _ r h15 hregs
  · rw [readReg_congr (writeReg s t.n v) u r h15 hregs, readReg_writeReg s _ _ _ hn, if_neg (hr t ht hw)]

/-! ### Another value in a register that is not the base -/

/-- Writes of two general-purpose registers commute. -/
theorem writeReg_comm (s : State) (m n : BitVec 4) (v w : Word) (h : m ≠ n) :
    writeReg (writeReg s m v) n w = writeReg (writeReg s n w) m v := by
  have hne : m.toNat ≠ n.toNat := fun c => h (BitVec.eq_of_toNat_eq c)
  have hregs : (s.regs.setIfInBounds m.toNat v).setIfInBounds n.toNat w =
      (s.regs.setIfInBounds n.toNat w).setIfInBounds m.toNat v := by
    rw [← Vector.toArray_inj]
    exact Array.setIfInBounds_comm v w hne
  exact congrArg (fun regs => { s with regs := regs }) hregs

section OtherRegister

variable (t : Transfer) (r : BitVec 4) (v : Word) (s : State)

/-- A write of another general-purpose register is not seen by a read. -/
theorem readReg_writeReg_ne (n : BitVec 4) (h15 : r ≠ 15#4) (hr : r ≠ n) : readReg (writeReg s r v) n = readReg s n := by
  rw [readReg_writeReg s r v n h15, if_neg hr.symm]

/-- The first address is computed from the base only. -/
theorem baseAddr_writeReg (h15 : r ≠ 15#4) (hr : r ≠ t.n) : baseAddr t (writeReg s r v) = baseAddr t s := by
  simp only [baseAddr, readReg_writeReg_ne r v s t.n h15 hr]

/-- The range test sees of the general-purpose registers the base only. -/
theorem rangeCrosses_writeReg (h15 : r ≠ 15#4) (hr : r ≠ t.n) :
    rangeCrosses t (writeReg s r v) = rangeCrosses t s := by
  rw [Bool.eq_iff_iff, rangeCrosses_iff, rangeCrosses_iff, baseAddr_writeReg t r v s h15 hr,
    readReg_writeReg_ne r v s t.n h15 hr]

/-- The loop sees of the general-purpose registers the base only. -/
theorem loadList_writeReg (h15 : r ≠ 15#4) (hr : r ≠ t.n) :
    loadList t (writeReg s r v) = (loadList t s).map (writeReg · r v) := by
  have hread : ∀ x a, memRead (writeReg x r v) a = memRead x a := fun x a => memRead_congr _ _ a rfl rfl rfl
  unfold loadList
  rw [baseAddr_writeReg t r v s h15 hr]
  split
  · exact loadListS_map (f := (writeReg · r v)) hread (fun _ _ _ => rfl) _ _ _ s
  · exact loadListD_map (f := (writeReg · r v)) hread (fun _ => rfl) (fun _ _ _ => rfl) _ _ _ s

/-- The draws of a list see no general-purpose register. -/
theorem drawList_writeReg : drawList t (writeReg s r v) = writeReg (drawList t s) r v := by
  unfold drawList
  split
  · exact drawListS_map (f := (writeReg · r v)) (fun _ _ => rfl) _ _ s
  · exact drawListD_map (f := (writeReg · r v)) (fun _ _ => rfl) _ _ s

/-- The write of the base sees no other general-purpose register. -/
theorem writeBack_writeReg (x : State) (h15 : r ≠ 15#4) (hr : r ≠ t.n) :
    writeBack t (writeReg s r v) (writeReg x r v) = writeReg (writeBack t s x) r v := by
  have hback : backValue t (writeReg s r v) = backValue t s := by
    simp only [backValue, readReg_writeReg_ne r v s t.n h15 hr]
  unfold writeBack
  rw [hback]
  split
  · exact writeReg_comm x r t.n v _ hr
  · rfl

/-- A draw for the base sees no other general-purpose register. -/
theorem drawReg_writeReg (n : BitVec 4) (hr : r ≠ n) : drawReg (writeReg s r v) n = writeReg (drawReg s n) r v := by
  have hcomm := writeReg_comm s r n v (Config.draw32 s.draws) hr
  exact congrArg (fun x : State => { x with draws := s.draws + 1 }) hcomm

/-- Another value in a general-purpose register that is not the base changes nothing but that register. -/
theorem exec_writeReg (i : Instr) (h15 : r ≠ 15#4) (hr : ∀ t, i.transfer = some t → r ≠ t.n) :
    exec i (writeReg s r v) = mapState (writeReg · r v) (exec i s) := by
  refine exec_map (writeReg · r v) i s (hcond := ?cond) (hretire := ?retire) (hfp := rfl) (hpc := rfl) (hregs0 := rfl)
    (hrange := rfl) (hiset := rfl) (hdraws := rfl) (hread := fun a => readAbort_congr _ _ a rfl)
    (hcross := fun t ht => rangeCrosses_writeReg t r v s h15 (hr t ht))
    (hload := fun t ht => loadList_writeReg t r v s h15 (hr t ht))
    (hback := fun t ht x => writeBack_writeReg t r v s x h15 (hr t ht))
    (hdraw := fun t => drawList_writeReg t r v s)
    (hall := drawListD_map (f := (writeReg · r v)) (fun _ _ => rfl) 32 0 s)
    (hreg := fun t ht x => drawReg_writeReg r v x t.n (hr t ht))
  case cond => intro src; cases src <;> rfl
  case retire => intro k x; cases k <;> rfl

end OtherRegister

/-- Settles O41: the inversion of the next states gives the writes, and `exec` commutes with a write of another register. -/
theorem onlyTheBaseRegisterIsUsed : Obligations.OnlyTheBaseRegisterIsUsed := by
  unfold Obligations.OnlyTheBaseRegisterIsUsed
  exact fun i s => ⟨fun u h r h15 hr => exec_next_readReg i s u h r h15 hr,
    fun r v h15 hr => exec_writeReg r v s i h15 hr⟩

end Sys2Proof.Machine

/-! SUPPORT. O9 and O10, the `P`, `U`, `W` map and the Decode blocks (30_encoding.md R56 to R58): the table of R58 as one
relation that all four classes meet, and the Decode block that `size` selects. -/

namespace Sys2Proof.Machine

/-! ### The table of `P`, `U`, `W` -/

/-- The table of 30_encoding.md R58: what the row `i` is, by the bits `P`, `U`, `W`, in a class whose Decode block gives the
values `block add wback`. -/
inductive PuwOutcome (block : Bool → Bool → Transfer) (i : Instr) : BitVec 1 → BitVec 1 → BitVec 1 → Prop where
  | move64 (hsee : i.redirect = some .move64) (hnone : i.transfer = none) : PuwOutcome block i 0#1 0#1 0#1
  | undefined {x : BitVec 1} (hundef : i.isUndefined = true) (hnone : i.transfer = none) : PuwOutcome block i x x 1#1
  | incrementAfter {w : BitVec 1} (hvldm : i.transfer = some (block true (w == 1#1))) : PuwOutcome block i 0#1 1#1 w
  | vldr {u : BitVec 1} (hsee : i.redirect = some .vldr) (hnone : i.transfer = none) : PuwOutcome block i 1#1 u 0#1
  | decrementBefore (hvldm : i.transfer = some (block false true)) : PuwOutcome block i 1#1 0#1 1#1

/-- A row of the table that has decode values has those of its Decode block, `add` being `U` and `wback` being `W`. -/
theorem PuwOutcome.transfer_eq {block : Bool → Bool → Transfer} {i : Instr} {p u w : BitVec 1} {t : Transfer}
    (h : PuwOutcome block i p u w) (ht : i.transfer = some t) : t = block (u == 1#1) (w == 1#1) := by
  cases h with
  | move64 _ hnone | undefined _ hnone | vldr _ hnone => rw [hnone] at ht; cases ht
  | incrementAfter hvldm => exact Option.some.inj (ht.symm.trans hvldm)
  | decrementBefore hvldm => exact Option.some.inj (ht.symm.trans hvldm)

section Classes

variable (c : BitVec 4) (p u d w : BitVec 1) (rn vd : BitVec 4)

/-- Class A1 follows the table: each value of `P`, `U`, `W` has its row. -/
theorem decodeA1_puw (m : BitVec 7) :
    PuwOutcome (transferD · · d rn vd m) (decodeA1 c p u d w rn vd m) p u w := by
  rcases bit_cases p with rfl | rfl <;> rcases bit_cases u with rfl | rfl <;> rcases bit_cases w with rfl | rfl <;>
    constructor <;> rfl

/-- Class A2 follows the table. -/
theorem decodeA2_puw (m : BitVec 8) :
    PuwOutcome (transferS · · d rn vd m) (decodeA2 c p u d w rn vd m) p u w := by
  rcases bit_cases p with rfl | rfl <;> rcases bit_cases u with rfl | rfl <;> rcases bit_cases w with rfl | rfl <;>
    constructor <;> rfl

/-- Class T1 follows the table. -/
theorem decodeT1_puw (m : BitVec 7) :
    PuwOutcome (transferD · · d rn vd m) (decodeT1 p u d w rn vd m) p u w := by
  rcases bit_cases p with rfl | rfl <;> rcases bit_cases u with rfl | rfl <;> rcases bit_cases w with rfl | rfl <;>
    constructor <;> rfl

/-- Class T2 follows the table. -/
theorem decodeT2_puw (m : BitVec 8) :
    PuwOutcome (transferS · · d rn vd m) (decodeT2 p u d w rn vd m) p u w := by
  rcases bit_cases p with rfl | rfl <;> rcases bit_cases u with rfl | rfl <;> rcases bit_cases w with rfl | rfl <;>
    constructor <;> rfl

end Classes

/-! ### The Decode block of a word -/

/-- The decode values that the fields of a word give: those of the `D` block where `size` is 11, else of the `S` block
(30_encoding.md R56, R57). -/
def blockOf (w : BitVec 32) (add wback : Bool) : Transfer :=
  if w.extractLsb' 8 2 = 0b11#2 then
    transferD add wback (w.extractLsb' 22 1) (w.extractLsb' 16 4) (w.extractLsb' 12 4) (w.extractLsb' 1 7)
  else transferS add wback (w.extractLsb' 22 1) (w.extractLsb' 16 4) (w.extractLsb' 12 4) (w.extractLsb' 0 8)

/-- With `size` 11 the block is that of the `D` lists. -/
theorem blockOf_double (w : BitVec 32) (h : w.extractLsb' 8 2 = 0b11#2) : blockOf w = fun add wback =>
    transferD add wback (w.extractLsb' 22 1) (w.extractLsb' 16 4) (w.extractLsb' 12 4) (w.extractLsb' 1 7) :=
  funext fun _ => funext fun _ => if_pos h

/-- With `size` 10 the block is that of the `S` lists. -/
theorem blockOf_single (w : BitVec 32) (h : w.extractLsb' 8 2 = 0b10#2) : blockOf w = fun add wback =>
    transferS add wback (w.extractLsb' 22 1) (w.extractLsb' 16 4) (w.extractLsb' 12 4) (w.extractLsb' 0 8) :=
  funext fun _ => funext fun _ => if_neg (by rw [h]; decide)

@[simp] theorem blockOf_add (w : BitVec 32) (add wback : Bool) : (blockOf w add wback).add = add := by
  unfold blockOf; split <;> rfl

@[simp] theorem blockOf_wback (w : BitVec 32) (add wback : Bool) : (blockOf w add wback).wback = wback := by
  unfold blockOf; split <;> rfl

@[simp] theorem blockOf_n (w : BitVec 32) (add wback : Bool) : (blockOf w add wback).n = w.extractLsb' 16 4 := by
  unfold blockOf; split <;> rfl

/-- Where bit 0 of a word is 0, its `imm8` is twice its bits 7:1. -/
theorem imm8_toNat_of_bit0 (w : BitVec 32) (h : w.extractLsb' 0 1 = 0#1) :
    (w.extractLsb' 0 8).toNat = 2 * (w.extractLsb' 1 7).toNat := by
  rw [← imm8_of_parts w 0#1 h, BitVec.toNat_append, Nat.shiftLeft_eq, BitVec.toNat_ofNat, Nat.zero_mod, Nat.or_zero]
  omega

/-! ### The words that fit a diagram -/

/-- A word that fits a diagram decodes to the row of the table that its `P`, `U`, `W` select, with the values of its
Decode block. -/
theorem decodeWord_of_fitsDiagram (k : InstrSet) (w : BitVec 32) (h : FitsDiagram k w) :
    ∃ i, decodeWord k w = .ok i ∧
      PuwOutcome (blockOf w) i (w.extractLsb' 24 1) (w.extractLsb' 23 1) (w.extractLsb' 21 1) := by
  obtain ⟨ha32, ht32, h25, h20, h10, hsize⟩ := h
  have hspace := (inLoadSpace_iff w).2 ⟨h25, h20, h10⟩
  rcases hsize with ⟨h3, h0⟩ | h2
  · rw [blockOf_double w h3]
    cases k with
    | a32 => exact ⟨_, (decodeA32_ok w _).2 ⟨ha32 rfl, hspace, .inr (.inl ⟨h3, h0, rfl⟩)⟩, decodeA1_puw ..⟩
    | t32 => exact ⟨_, (decodeT32_ok w _).2 ⟨ht32 rfl, hspace, .inr (.inl ⟨h3, h0, rfl⟩)⟩, decodeT1_puw ..⟩
  · rw [blockOf_single w h2]
    cases k with
    | a32 => exact ⟨_, (decodeA32_ok w _).2 ⟨ha32 rfl, hspace, .inr (.inr ⟨h2, rfl⟩)⟩, decodeA2_puw ..⟩
    | t32 => exact ⟨_, (decodeT32_ok w _).2 ⟨ht32 rfl, hspace, .inr (.inr ⟨h2, rfl⟩)⟩, decodeT2_puw ..⟩

/-- A word that decodes to a VLDM or VLDMDB fits a diagram: the other words that decode are those of FLDM*X. -/
theorem fitsDiagram_of_transfer (k : InstrSet) (w : BitVec 32) (i : Instr) (t : Transfer) (h : decodeWord k w = .ok i)
    (ht : i.transfer = some t) : FitsDiagram k w := by
  cases k with
  | a32 =>
    obtain ⟨hcond, hspace, ⟨-, -, rfl⟩ | ⟨h3, h0, -⟩ | ⟨h2, -⟩⟩ := (decodeA32_ok w i).1 h
    · cases ht
    all_goals obtain ⟨h25, h20, h10⟩ := (inLoadSpace_iff w).1 hspace
    · exact ⟨fun _ => hcond, nofun, h25, h20, h10, .inl ⟨h3, h0⟩⟩
    · exact ⟨fun _ => hcond, nofun, h25, h20, h10, .inr h2⟩
  | t32 =>
    obtain ⟨htop, hspace, ⟨-, -, rfl⟩ | ⟨h3, h0, -⟩ | ⟨h2, -⟩⟩ := (decodeT32_ok w i).1 h
    · cases ht
    all_goals obtain ⟨h25, h20, h10⟩ := (inLoadSpace_iff w).1 hspace
    · exact ⟨nofun, fun _ => htop, h25, h20, h10, .inl ⟨h3, h0⟩⟩
    · exact ⟨nofun, fun _ => htop, h25, h20, h10, .inr h2⟩

/-- Settles O9: a word that fits a diagram meets the table of R58, read row by row. -/
theorem puwSelectsTheOutcome : Obligations.PuwSelectsTheOutcome := by
  unfold Obligations.PuwSelectsTheOutcome
  intro k w hfits
  obtain ⟨i, hi, hrow⟩ := decodeWord_of_fitsDiagram k w hfits
  refine ⟨i, hi, ?_⟩
  generalize w.extractLsb' 24 1 = p, w.extractLsb' 23 1 = u, w.extractLsb' 21 1 = wb at hrow ⊢
  cases hrow with
  | move64 hsee => simp [hsee]
  | undefined hundef => rcases bit_cases p with rfl | rfl <;> simp [hundef]
  | incrementAfter hvldm => rcases bit_cases wb with rfl | rfl <;> simp [hvldm]
  | vldr hsee => rcases bit_cases u with rfl | rfl <;> simp [hsee]
  | decrementBefore hvldm => simp [hvldm]

/-- Settles O10: a word with decode values fits a diagram, so its values are those of the Decode block of its `size`. -/
theorem decodeValuesOfBothBlocks : Obligations.DecodeValuesOfBothBlocks := by
  unfold Obligations.DecodeValuesOfBothBlocks
  intro k w i t hi ht
  have hfits := fitsDiagram_of_transfer k w i t hi ht
  obtain ⟨i', hi', hrow⟩ := decodeWord_of_fitsDiagram k w hfits
  obtain rfl : i = i' := Except.ok.inj (hi.symm.trans hi')
  obtain ⟨himm, -, -⟩ := transfer_values i t ht
  obtain rfl := hrow.transfer_eq ht
  obtain ⟨-, -, -, -, -, hsize⟩ := hfits
  refine ⟨hsize.imp_left And.left, blockOf_add .., blockOf_wback .., blockOf_n .., ?_⟩
  rcases hsize with ⟨h3, h0⟩ | h2
  · have himm8 := imm8_toNat_of_bit0 w h0
    simp only [blockOf_double w h3] at himm ⊢
    obtain ⟨hd, hregs, -⟩ := transferD_values (w.extractLsb' 23 1 == 1#1) (w.extractLsb' 21 1 == 1#1)
      (w.extractLsb' 22 1) (w.extractLsb' 16 4) (w.extractLsb' 12 4) (w.extractLsb' 1 7)
    refine ⟨?_, fun _ => ⟨rfl, hd, ?_, himm⟩, fun h2 => absurd (h3.symm.trans h2) (by decide)⟩
    · rw [himm, hregs, himm8]
      change 8 * _ = 4 * (2 * _)
      omega
    · rw [hregs, himm8]
      omega
  · simp only [blockOf_single w h2] at himm ⊢
    obtain ⟨hd, hregs, -⟩ := transferS_values (w.extractLsb' 23 1 == 1#1) (w.extractLsb' 21 1 == 1#1)
      (w.extractLsb' 22 1) (w.extractLsb' 16 4) (w.extractLsb' 12 4) (w.extractLsb' 0 8)
    exact ⟨himm, fun h3 => absurd (h2.symm.trans h3) (by decide), fun _ => ⟨rfl, hd, hregs, himm⟩⟩

end Sys2Proof.Machine

/-! SUPPORT. O17, the UNDEFINED rows (60_exceptions.md R95): where the `P`, `U`, `W` table has them, and when a conditional
instruction raises. -/

namespace Sys2Proof.Machine

/-- The row of the table at `P` equal to `U` and `W` set is UNDEFINED. -/
theorem PuwOutcome.isUndefined_of_p_eq_u {block : Bool → Bool → Transfer} {i : Instr} {p u w : BitVec 1}
    (h : PuwOutcome block i p u w) (hpu : p = u) (hw : w = 1#1) : i.isUndefined = true := by
  cases h with
  | undefined hundef => exact hundef
  | move64 | vldr => exact absurd hw (by decide)
  | incrementAfter | decrementBefore => exact absurd hpu (by decide)

/-- A conditional instruction whose condition passes is its body. -/
theorem conditional_of_passed (k : InstrSet) (src : CondSource) (s : State) (body : Result)
    (h : condOk src s = some true) : conditional k src s body = body := by
  rw [conditional, h]

/-- A conditional instruction raises nothing unless its condition passes. -/
theorem conditional_ne_fault (k : InstrSet) (src : CondSource) (s : State) (body : Result)
    (h : condOk src s ≠ some true) (f : Fault) : conditional k src s body ≠ .fault f := by
  rcases conditional_cases k src s body with ⟨hpass, -⟩ | ⟨-, hnext⟩ | ⟨-, hrefused⟩
  · exact absurd hpass h
  · rw [hnext]; exact nofun
  · rw [hrefused]; exact nofun

/-- Settles O17: the table gives the UNDEFINED row, and such a row is a raise under its condition, with no enable check. -/
theorem undefinedEncodingsRaiseWhenConditionPasses : Obligations.UndefinedEncodingsRaiseWhenConditionPasses := by
  unfold Obligations.UndefinedEncodingsRaiseWhenConditionPasses
  refine ⟨fun k w hfits hpu hw => ?_, fun i s hundef => ?_⟩
  · obtain ⟨i, hi, hrow⟩ := decodeWord_of_fitsDiagram k w hfits
    exact ⟨i, hi, hrow.isUndefined_of_p_eq_u hpu hw⟩
  · rw [exec_undefined i s hundef]
    exact ⟨conditional_of_passed _ _ s _, conditional_ne_fault _ _ s _⟩

end Sys2Proof.Machine

/-! SUPPORT. The round trips of the encoder and the decoder (O1, O2): the decoder is the inverse of the encoder on each
instruction set's words, and the bytes of a word are read back as that word. -/

namespace Sys2Proof

/-! ### The words of the shared layout -/

section Layout

variable (top c : BitVec 4) (p u d w : BitVec 1) (rn vd : BitVec 4) (size : BitVec 2) (imm8 : BitVec 8) (m : BitVec 7)

/-- A word of the shared layout has the fixed bits below bit 28. -/
theorem inLoadSpace_loadWord : inLoadSpace (loadWord top p u d w rn vd size imm8) = true := by
  obtain ⟨-, h25, -, -, -, -, h20, -, -, h10, -, -⟩ := loadWord_fields top p u d w rn vd size imm8
  exact (inLoadSpace_iff _).2 ⟨h25, h20, h10⟩

/-- Bits 7:1 and bit 0 of a word of the shared layout are those of its `imm8`. -/
theorem loadWord_imm7 (b : BitVec 1) :
    (loadWord top p u d w rn vd size (m ++ b)).extractLsb' 1 7 = m ∧
    (loadWord top p u d w rn vd size (m ++ b)).extractLsb' 0 1 = b := by
  unfold loadWord
  exact ⟨(field_lower _ _ 1 7 (by decide) (by decide)).trans
      ((field_upper m b 1 7 (by decide)).trans BitVec.extractLsb'_eq_self),
    (field_lower _ _ 0 1 (by decide) (by decide)).trans
      ((field_lower m b 0 1 (by decide) (by decide)).trans BitVec.extractLsb'_eq_self)⟩

/-! ### Decoding a word of the layout -/

/-- A word of class A1 decodes by the `P`, `U`, `W` map of A1. -/
theorem decodeA32_classA1 (hc : condFieldOk c = true) :
    decodeA32 (loadWord c p u d w rn vd 0b11#2 (m ++ 0#1)) = .ok (decodeA1 c p u d w rn vd m) := by
  obtain ⟨h28, -, h24, h23, h22, h21, -, h16, h12, -, h8, -⟩ := loadWord_fields c p u d w rn vd 0b11#2 (m ++ 0#1)
  obtain ⟨h1, h0⟩ := loadWord_imm7 c p u d w rn vd 0b11#2 m 0#1
  rw [decodeA32_ok, h28, h24, h23, h22, h21, h16, h12, h8, h1, h0]
  exact ⟨by simpa [condFieldOk] using hc, inLoadSpace_loadWord .., .inr (.inl ⟨rfl, rfl, rfl⟩)⟩

/-- A word of class A2 decodes by the `P`, `U`, `W` map of A2. -/
theorem decodeA32_classA2 (hc : condFieldOk c = true) :
    decodeA32 (loadWord c p u d w rn vd 0b10#2 imm8) = .ok (decodeA2 c p u d w rn vd imm8) := by
  obtain ⟨h28, -, h24, h23, h22, h21, -, h16, h12, -, h8, h0⟩ := loadWord_fields c p u d w rn vd 0b10#2 imm8
  rw [decodeA32_ok, h28, h24, h23, h22, h21, h16, h12, h8, h0]
  exact ⟨by simpa [condFieldOk] using hc, inLoadSpace_loadWord .., .inr (.inr ⟨rfl, rfl⟩)⟩

/-- A word with `size` 11 and bit 0 set is an FLDM*X word in A32. -/
theorem decodeA32_fldmx (hc : condFieldOk c = true) :
    decodeA32 (loadWord c p u d w rn vd 0b11#2 (m ++ 1#1)) = .ok (.seeFldmxA32 c p u d w rn vd m) := by
  obtain ⟨h28, -, h24, h23, h22, h21, -, h16, h12, -, h8, -⟩ := loadWord_fields c p u d w rn vd 0b11#2 (m ++ 1#1)
  obtain ⟨h1, h0⟩ := loadWord_imm7 c p u d w rn vd 0b11#2 m 1#1
  rw [decodeA32_ok, h28, h24, h23, h22, h21, h16, h12, h8, h1, h0]
  exact ⟨by simpa [condFieldOk] using hc, inLoadSpace_loadWord .., .inl ⟨rfl, rfl, rfl⟩⟩

/-- A word of class T1 decodes by the `P`, `U`, `W` map of T1. -/
theorem decodeT32_classT1 :
    decodeT32 (loadWord t32Top p u d w rn vd 0b11#2 (m ++ 0#1)) = .ok (decodeT1 p u d w rn vd m) := by
  obtain ⟨h28, -, h24, h23, h22, h21, -, h16, h12, -, h8, -⟩ := loadWord_fields t32Top p u d w rn vd 0b11#2 (m ++ 0#1)
  obtain ⟨h1, h0⟩ := loadWord_imm7 t32Top p u d w rn vd 0b11#2 m 0#1
  rw [decodeT32_ok, h28, h24, h23, h22, h21, h16, h12, h8, h1, h0]
  exact ⟨rfl, inLoadSpace_loadWord .., .inr (.inl ⟨rfl, rfl, rfl⟩)⟩

/-- A word of class T2 decodes by the `P`, `U`, `W` map of T2. -/
theorem decodeT32_classT2 :
    decodeT32 (loadWord t32Top p u d w rn vd 0b10#2 imm8) = .ok (decodeT2 p u d w rn vd imm8) := by
  obtain ⟨h28, -, h24, h23, h22, h21, -, h16, h12, -, h8, h0⟩ := loadWord_fields t32Top p u d w rn vd 0b10#2 imm8
  rw [decodeT32_ok, h28, h24, h23, h22, h21, h16, h12, h8, h0]
  exact ⟨rfl, inLoadSpace_loadWord .., .inr (.inr ⟨rfl, rfl⟩)⟩

/-- A word with `size` 11 and bit 0 set is an FLDM*X word in T32. -/
theorem decodeT32_fldmx :
    decodeT32 (loadWord t32Top p u d w rn vd 0b11#2 (m ++ 1#1)) = .ok (.seeFldmxT32 p u d w rn vd m) := by
  obtain ⟨h28, -, h24, h23, h22, h21, -, h16, h12, -, h8, -⟩ := loadWord_fields t32Top p u d w rn vd 0b11#2 (m ++ 1#1)
  obtain ⟨h1, h0⟩ := loadWord_imm7 t32Top p u d w rn vd 0b11#2 m 1#1
  rw [decodeT32_ok, h28, h24, h23, h22, h21, h16, h12, h8, h1, h0]
  exact ⟨rfl, inLoadSpace_loadWord .., .inl ⟨rfl, rfl, rfl⟩⟩

/-! ### Encoding what the `P`, `U`, `W` maps answer -/

/-- The instruction that the map of class A1 answers has the word of its fields. -/
theorem encode_decodeA1 : (decodeA1 c p u d w rn vd m).iset = .a32 ∧ (decodeA1 c p u d w rn vd m).wf = condFieldOk c ∧
    encode (decodeA1 c p u d w rn vd m) = loadWord c p u d w rn vd 0b11#2 (m ++ 0#1) := by
  rcases bit_cases p with rfl | rfl <;> rcases bit_cases u with rfl | rfl <;> rcases bit_cases w with rfl | rfl <;>
    exact ⟨rfl, rfl, rfl⟩

/-- The instruction that the map of class A2 answers has the word of its fields. -/
theorem encode_decodeA2 : (decodeA2 c p u d w rn vd imm8).iset = .a32 ∧
    (decodeA2 c p u d w rn vd imm8).wf = condFieldOk c ∧
    encode (decodeA2 c p u d w rn vd imm8) = loadWord c p u d w rn vd 0b10#2 imm8 := by
  rcases bit_cases p with rfl | rfl <;> rcases bit_cases u with rfl | rfl <;> rcases bit_cases w with rfl | rfl <;>
    exact ⟨rfl, rfl, rfl⟩

/-- The instruction that the map of class T1 answers has the word of its fields. -/
theorem encode_decodeT1 : (decodeT1 p u d w rn vd m).iset = .t32 ∧ (decodeT1 p u d w rn vd m).wf = true ∧
    encode (decodeT1 p u d w rn vd m) = loadWord t32Top p u d w rn vd 0b11#2 (m ++ 0#1) := by
  rcases bit_cases p with rfl | rfl <;> rcases bit_cases u with rfl | rfl <;> rcases bit_cases w with rfl | rfl <;>
    exact ⟨rfl, rfl, rfl⟩

/-- The instruction that the map of class T2 answers has the word of its fields. -/
theorem encode_decodeT2 : (decodeT2 p u d w rn vd imm8).iset = .t32 ∧ (decodeT2 p u d w rn vd imm8).wf = true ∧
    encode (decodeT2 p u d w rn vd imm8) = loadWord t32Top p u d w rn vd 0b10#2 imm8 := by
  rcases bit_cases p with rfl | rfl <;> rcases bit_cases u with rfl | rfl <;> rcases bit_cases w with rfl | rfl <;>
    exact ⟨rfl, rfl, rfl⟩

end Layout

/-! ### Words: the decoder is the inverse of the encoder -/

/-- The word of a well-formed instruction decodes to it. -/
theorem decodeWord_encode (i : Instr) (h : i.wf = true) : decodeWord i.iset (encode i) = .ok i := by
  cases i with
  | vldmdbA1 | vldmA1 | undefA1Puw001 | undefA1Puw111 | seeMov64A1 | seeVldrA1 => exact decodeA32_classA1 (hc := h) ..
  | vldmdbA2 | vldmA2 | undefA2Puw001 | undefA2Puw111 | seeMov64A2 | seeVldrA2 => exact decodeA32_classA2 (hc := h) ..
  | vldmdbT1 | vldmT1 | undefT1Puw001 | undefT1Puw111 | seeMov64T1 | seeVldrT1 => exact decodeT32_classT1 ..
  | vldmdbT2 | vldmT2 | undefT2Puw001 | undefT2Puw111 | seeMov64T2 | seeVldrT2 => exact decodeT32_classT2 ..
  | seeFldmxA32 => exact decodeA32_fldmx (hc := h) ..
  | seeFldmxT32 => exact decodeT32_fldmx ..

/-- An A32 word that decodes is the word of the well-formed A32 instruction it decodes to. -/
theorem encode_of_decodeA32 (w : BitVec 32) (i : Instr) (h : decodeA32 w = .ok i) :
    i.iset = .a32 ∧ i.wf = true ∧ encode i = w := by
  obtain ⟨hcond, hspace, hrow⟩ := (decodeA32_ok w i).1 h
  have hwf : condFieldOk (w.extractLsb' 28 4) = true := by simpa [condFieldOk] using hcond
  have hword := loadWord_of_fields w hspace
  rcases hrow with ⟨h3, h0, rfl⟩ | ⟨h3, h0, rfl⟩ | ⟨h2, rfl⟩
  · rw [h3, ← imm8_of_parts w _ h0] at hword
    exact ⟨rfl, hwf, hword⟩
  · rw [h3, ← imm8_of_parts w _ h0] at hword
    obtain ⟨hset, hok, henc⟩ := encode_decodeA1 (w.extractLsb' 28 4) (w.extractLsb' 24 1) (w.extractLsb' 23 1)
      (w.extractLsb' 22 1) (w.extractLsb' 21 1) (w.extractLsb' 16 4) (w.extractLsb' 12 4) (w.extractLsb' 1 7)
    exact ⟨hset, hok.trans hwf, henc.trans hword⟩
  · rw [h2] at hword
    obtain ⟨hset, hok, henc⟩ := encode_decodeA2 (w.extractLsb' 28 4) (w.extractLsb' 24 1) (w.extractLsb' 23 1)
      (w.extractLsb' 22 1) (w.extractLsb' 21 1) (w.extractLsb' 16 4) (w.extractLsb' 12 4) (w.extractLsb' 0 8)
    exact ⟨hset, hok.trans hwf, henc.trans hword⟩

/-- A T32 word that decodes is the word of the T32 instruction it decodes to. -/
theorem encode_of_decodeT32 (w : BitVec 32) (i : Instr) (h : decodeT32 w = .ok i) :
    i.iset = .t32 ∧ i.wf = true ∧ encode i = w := by
  obtain ⟨htop, hspace, hrow⟩ := (decodeT32_ok w i).1 h
  have hword := loadWord_of_fields w hspace
  rw [htop] at hword
  rcases hrow with ⟨h3, h0, rfl⟩ | ⟨h3, h0, rfl⟩ | ⟨h2, rfl⟩
  · rw [h3, ← imm8_of_parts w _ h0] at hword
    exact ⟨rfl, rfl, hword⟩
  · rw [h3, ← imm8_of_parts w _ h0] at hword
    obtain ⟨hset, hok, henc⟩ := encode_decodeT1 (w.extractLsb' 24 1) (w.extractLsb' 23 1)
      (w.extractLsb' 22 1) (w.extractLsb' 21 1) (w.extractLsb' 16 4) (w.extractLsb' 12 4) (w.extractLsb' 1 7)
    exact ⟨hset, hok, henc.trans hword⟩
  · rw [h2] at hword
    obtain ⟨hset, hok, henc⟩ := encode_decodeT2 (w.extractLsb' 24 1) (w.extractLsb' 23 1)
      (w.extractLsb' 22 1) (w.extractLsb' 21 1) (w.extractLsb' 16 4) (w.extractLsb' 12 4) (w.extractLsb' 0 8)
    exact ⟨hset, hok, henc.trans hword⟩

/-- A word decodes to an instruction exactly when it is the word of that instruction, well-formed and of the instruction
set read. -/
theorem decodeWord_eq_ok_iff (k : InstrSet) (w : BitVec 32) (i : Instr) :
    decodeWord k w = .ok i ↔ i.iset = k ∧ i.wf = true ∧ encode i = w := by
  constructor
  · intro h
    cases k with
    | a32 => exact encode_of_decodeA32 w i h
    | t32 => exact encode_of_decodeT32 w i h
  · rintro ⟨rfl, hwf, rfl⟩
    exact decodeWord_encode i hwf

/-! ### Bytes -/

/-- The bytes of the A32 word that four bytes make are those bytes. -/
theorem bytesOfWord_wordOfBytesA32 (b0 b1 b2 b3 : Byte) :
    bytesOfWord .a32 (wordOfBytesA32 b0 b1 b2 b3) = [b0, b1, b2, b3] := by
  simp only [bytesOfWord, wordOfBytesA32, List.cons.injEq, and_true]
  refine ⟨?_, ?_, ?_, ?_⟩
  · exact (field_lower _ b0 0 8 (by decide) (by decide)).trans BitVec.extractLsb'_eq_self
  · exact (field_upper _ b0 8 8 (by decide)).trans
      ((field_lower _ b1 0 8 (by decide) (by decide)).trans BitVec.extractLsb'_eq_self)
  · exact (field_upper _ b0 16 8 (by decide)).trans ((field_upper _ b1 8 8 (by decide)).trans
      ((field_lower b3 b2 0 8 (by decide) (by decide)).trans BitVec.extractLsb'_eq_self))
  · exact (field_upper _ b0 24 8 (by decide)).trans ((field_upper _ b1 16 8 (by decide)).trans
      ((field_upper b3 b2 8 8 (by decide)).trans BitVec.extractLsb'_eq_self))

/-- The bytes of the T32 word that two halfwords make are those of the halfwords. -/
theorem bytesOfWord_wordOfHalfwords (b0 b1 b2 b3 : Byte) :
    bytesOfWord .t32 (wordOfHalfwords (halfwordOfBytes b0 b1) (halfwordOfBytes b2 b3)) = [b0, b1, b2, b3] := by
  simp only [bytesOfWord, wordOfHalfwords, halfwordOfBytes, List.cons.injEq, and_true]
  refine ⟨?_, ?_, ?_, ?_⟩
  · exact (field_upper _ _ 16 8 (by decide)).trans
      ((field_lower b1 b0 0 8 (by decide) (by decide)).trans BitVec.extractLsb'_eq_self)
  · exact (field_upper _ _ 24 8 (by decide)).trans
      ((field_upper b1 b0 8 8 (by decide)).trans BitVec.extractLsb'_eq_self)
  · exact (field_lower _ _ 0 8 (by decide) (by decide)).trans
      ((field_lower b3 b2 0 8 (by decide) (by decide)).trans BitVec.extractLsb'_eq_self)
  · exact (field_lower _ _ 8 8 (by decide) (by decide)).trans
      ((field_upper b3 b2 8 8 (by decide)).trans BitVec.extractLsb'_eq_self)

/-- A field of a field is a field. -/
theorem field_field {n : Nat} (w : BitVec n) (s l a m : Nat) (h : a + m ≤ l) :
    (w.extractLsb' s l).extractLsb' a m = w.extractLsb' (s + a) m := by
  apply BitVec.eq_of_getLsbD_eq
  intro i hi
  simp only [BitVec.getLsbD_extractLsb', hi, show a + i < l by omega, decide_true, Bool.true_and, Nat.add_assoc]

/-- A T32 word with the fixed bits 31:25 of the diagrams begins with a halfword of a 32-bit instruction. -/
theorem beginsWideT32_of_fixed (w : BitVec 32) (h28 : w.extractLsb' 28 4 = 0b1110#4) (h25 : w.extractLsb' 25 3 = 0b110#3) :
    beginsWideT32 (halfwordOfBytes (w.extractLsb' 16 8) (w.extractLsb' 24 8)) = true := by
  have hbit : w.extractLsb' 27 1 = 1#1 := by
    rw [← field_field w 25 3 2 1 (by decide), h25]
    decide
  have hfive : (halfwordOfBytes (w.extractLsb' 16 8) (w.extractLsb' 24 8)).extractLsb' 11 5 = 0b11101#5 := by
    unfold halfwordOfBytes
    rw [field_join w 24 8 16 8 rfl, field_field w 16 _ 11 5 (by decide), ← field_join w 28 4 27 1 rfl, h28, hbit]
    decide
  simp [beginsWideT32, hfive]

/-- Four bytes that decode are the bytes of a word that decodes to the same instruction. -/
theorem decodeWord_of_decode (k : InstrSet) (b0 b1 b2 b3 : Byte) (i : Instr) (h : decode k [b0, b1, b2, b3] = .ok i) :
    ∃ w, bytesOfWord k w = [b0, b1, b2, b3] ∧ decodeWord k w = .ok i := by
  cases k with
  | a32 => exact ⟨_, bytesOfWord_wordOfBytesA32 b0 b1 b2 b3, h⟩
  | t32 =>
    simp only [decode] at h
    split at h
    · exact ⟨_, bytesOfWord_wordOfHalfwords b0 b1 b2 b3, h⟩
    · cases h

/-- A word that decodes is decoded from its bytes. -/
theorem decode_bytesOfWord (k : InstrSet) (w : BitVec 32) (i : Instr) (h : decodeWord k w = .ok i) :
    decode k (bytesOfWord k w) = .ok i := by
  cases k with
  | a32 =>
    simp only [bytesOfWord, decode, wordOfBytesA32_split]
    exact h
  | t32 =>
    obtain ⟨h28, hspace, -⟩ := (decodeT32_ok w i).1 h
    obtain ⟨h25, -, -⟩ := (inLoadSpace_iff w).1 hspace
    simp only [bytesOfWord, decode, beginsWideT32_of_fixed w h28 h25, if_true, wordOfHalfwords_split]
    exact h

/-- Settles O1: the word of the instruction decodes to it, and so do its bytes. -/
theorem encodedInstructionDecodesToItself : Obligations.EncodedInstructionDecodesToItself := by
  unfold Obligations.EncodedInstructionDecodesToItself
  exact fun i hwf => decode_bytesOfWord i.iset (encode i) i (decodeWord_encode i hwf)

/-- Settles O2: the bytes are those of a word that decodes, and that word is the instruction's. -/
theorem decodedBytesEncodeBack : Obligations.DecodedBytesEncodeBack := by
  unfold Obligations.DecodedBytesEncodeBack
  intro k b0 b1 b2 b3 i h
  obtain ⟨w, hbytes, hw⟩ := decodeWord_of_decode k b0 b1 b2 b3 i h
  obtain ⟨rfl, hwf, rfl⟩ := (decodeWord_eq_ok_iff k w i).1 hw
  exact ⟨rfl, hwf, hbytes⟩

end Sys2Proof

/-! SUPPORT. What a completed instruction and a fault leave unchanged (O40, O42 to O44, O12, O47, O48, O49): one frame lemma
for the next states and one for the faults, and the same for a step. -/

namespace Sys2Proof.Machine

/-! ### The frame of a completed instruction -/

/-- A list that loads changes the SIMD&FP registers only. -/
theorem loadList_frame (t : Transfer) (s s' : State) (h : loadList t s = .ok s') : s' = { s with dregs := s'.dregs } := by
  unfold loadList at h
  split at h
  · exact loadListS_frame _ _ _ _ _ h
  · exact loadListD_frame _ _ _ _ _ h

/-- A completed instruction changes the two register files and the draw counter, adds 4 to `pc` and, in T32, uses up one
`it_cond` input; it changes nothing else (40_vldm.md R92). -/
theorem exec_next_frame (i : Instr) (s u : State) (h : exec i s = .next u) : ∃ regs dregs draws, u = { s with
    regs := regs, dregs := dregs, draws := draws, pc := s.pc + 4#32,
    itConds := if i.iset = .t32 then s.itConds.tail else s.itConds } := by
  rcases exec_next i s u h with rfl | ⟨t, -, -, ⟨-, s', hload, rfl⟩ | ⟨-, rfl⟩⟩
  · exact ⟨_, _, _, retire_eq _ _⟩
  · rw [loadList_frame t s s' hload, retire_eq, writeBack]
    split <;> exact ⟨_, _, _, rfl⟩
  · rw [retire_eq, drawAllD, drawListD_frame]
    split <;> exact ⟨_, _, _, rfl⟩

/-- A fault leaves the state as it was, or it is a `DataAbort(Other)` and SIMD&FP registers are drawn
(60_exceptions.md R104). -/
theorem exec_fault_frame (i : Instr) (s : State) (f : Fault) (h : exec i s = .fault f) :
    f.left = s ∨ f.isOtherAbort = true ∧ ∃ dregs draws, f.left = { s with dregs := dregs, draws := draws } := by
  rcases exec_fault i s f h with rfl | rfl | ⟨t, -, ⟨⟨kind, addr⟩, -, rfl⟩ | ⟨⟨kind, addr⟩, -, rfl⟩⟩
  · exact .inl rfl
  · exact .inl rfl
  · cases kind with
    | alignment => exact .inl rfl
    | other =>
      refine .inr ⟨rfl, ?_⟩
      change ∃ dregs draws, drawList t s = _
      unfold drawList
      split
      · exact ⟨_, _, drawListS_frame _ _ s⟩
      · exact ⟨_, _, drawListD_frame _ _ s⟩
  · cases kind with
    | alignment => exact .inl rfl
    | other => exact .inr ⟨rfl, _, _, drawListD_frame 32 0 s⟩

/-- Settles O40: the frame of a completed instruction. -/
theorem noInstructionChangesControlStateOrMemory : Obligations.NoInstructionChangesControlStateOrMemory := by
  unfold Obligations.NoInstructionChangesControlStateOrMemory
  intro i s t h
  obtain ⟨regs, dregs, draws, rfl⟩ := exec_next_frame i s t h
  exact ⟨rfl, rfl, rfl, rfl, rfl, rfl, rfl, rfl, rfl, rfl, rfl, rfl, rfl, rfl, fun _ => rfl⟩

/-- Settles O44: the frame of a fault. -/
theorem faultsArePrecise : Obligations.FaultsArePrecise := by
  unfold Obligations.FaultsArePrecise
  intro i s f h
  rcases exec_fault_frame i s f h with hleft | ⟨hother, dregs, draws, hleft⟩
  · rw [hleft]
    exact ⟨rfl, fun _ => rfl⟩
  · rw [hleft]
    exact ⟨rfl, fun hnot => absurd (hother.symm.trans hnot) (by decide)⟩

/-- Settles O43: `pc` in the two frames. -/
theorem pcAdvancesByFourOrStays : Obligations.PcAdvancesByFourOrStays := by
  unfold Obligations.PcAdvancesByFourOrStays
  refine fun i s => ⟨fun t h => ?_, fun f h => ?_⟩
  · obtain ⟨regs, dregs, draws, rfl⟩ := exec_next_frame i s t h
    rfl
  · rcases exec_fault_frame i s f h with hleft | ⟨-, dregs, draws, hleft⟩ <;> rw [hleft]

/-! ### The SIMD&FP registers outside the list -/

/-- A completed instruction whose list is not too long keeps the SIMD&FP registers, or they are those of a list loaded
whole. -/
theorem exec_next_dregs (i : Instr) (s u : State) (h : exec i s = .next u)
    (hlist : ∀ x, i.transfer = some x → listTooLong x = false) :
    u.dregs = s.dregs ∨ ∃ x s', i.transfer = some x ∧ loadList x s = .ok s' ∧ u.dregs = s'.dregs := by
  rcases exec_next i s u h with rfl | ⟨t, ht, -, ⟨-, s', hload, rfl⟩ | ⟨hlong, -⟩⟩
  · exact .inl (retire_dregs _ _)
  · refine .inr ⟨t, s', ht, hload, ?_⟩
    rw [retire_dregs, writeBack]
    split <;> rfl
  · exact absurd (hlong.symm.trans (hlist t ht)) (by decide)

/-- The register range check passes exactly for the lists that R87 allows. -/
theorem listTooLong_eq_false_iff (t : Transfer) :
    listTooLong t = false ↔ (t.singleRegs = true ∨ t.regs ≤ 16) ∧ t.d + t.regs ≤ 32 := by
  cases hs : t.singleRegs <;> simp [listTooLong, hs]

/-- Settles O42: a list that loads keeps the registers outside it, every other completed instruction keeps all. -/
theorem registersOutsideTheListAreKept : Obligations.RegistersOutsideTheListAreKept := by
  unfold Obligations.RegistersOutsideTheListAreKept
  intro i s u h hlist
  rcases exec_next_dregs i s u h fun x hx => (listTooLong_eq_false_iff x).2 (hlist x hx) with
    hkept | ⟨x, s', hx, hload, hdregs⟩
  · exact ⟨fun r _ _ _ => readD_congr s u r hkept, fun r _ _ _ _ _ => readS_congr s u r hkept⟩
  · obtain ⟨-, hfit⟩ := hlist x hx
    cases hs : x.singleRegs with
    | false =>
      simp only [loadList, hs, Bool.false_eq_true, if_false] at hload
      refine ⟨fun r _ hD _ => ?_, fun r _ y hy hyS _ => ?_⟩
      · rw [readD_congr s' u r hdregs]
        exact loadListD_keeps _ _ _ _ _ hload r (hD x hx hs)
      · obtain rfl := Option.some.inj (hx.symm.trans hy)
        exact absurd (hs.symm.trans hyS) (by decide)
    | true =>
      simp only [loadList, hs, if_true] at hload
      obtain ⟨hkeepS, hkeepD⟩ := loadListS_keeps _ _ _ _ _ hfit hload
      refine ⟨fun r _ _ hS => ?_, fun r _ y hy _ hr => ?_⟩
      · rw [readD_congr s' u r hdregs]
        exact hkeepD r (hS x hx hs)
      · obtain rfl := Option.some.inj (hx.symm.trans hy)
        rw [readS_congr s' u r hdregs]
        exact hkeepS r hr

/-! ### The frame of a step -/

/-- A step that completes had an aligned `pc` and is the instruction that the bytes at `pc` decode to. -/
theorem step_next (s t : State) (h : step s = .next t) :
    pcAligned s = true ∧ ∃ i, decode s.iset (fetchBytes s) = .ok i ∧ exec i s = .next t := by
  unfold step at h
  split at h
  · next hpc =>
    refine ⟨hpc, ?_⟩
    cases hdec : decode s.iset (fetchBytes s) with
    | ok i => rw [hdec] at h; exact ⟨i, rfl, h⟩
    | error why => rw [hdec] at h; cases h
  · cases h

/-- A step that completes adds 4 to `pc`. -/
theorem step_next_pc (s t : State) (h : step s = .next t) : t.pc = s.pc + 4#32 := by
  obtain ⟨-, i, -, hexec⟩ := step_next s t h
  obtain ⟨regs, dregs, draws, rfl⟩ := exec_next_frame i s t hexec
  rfl

/-- Alignment to halfwords depends on the address modulo 2. -/
theorem bit0_eq_zero_iff (a : Word) : a.extractLsb' 0 1 = 0#1 ↔ a.toNat % 2 = 0 := by
  simp [← BitVec.toNat_inj]

/-- `pc + 4` is aligned exactly as `pc` is, in both instruction sets. -/
theorem pcAligned_of_advance (s t : State) (hiset : t.iset = s.iset) (hpc : t.pc = s.pc + 4#32)
    (h : pcAligned s = true) : pcAligned t = true := by
  unfold pcAligned at h ⊢
  rw [hiset, hpc]
  cases hs : s.iset with
  | a32 =>
    simp only [hs] at h ⊢
    exact (wordAligned_add s.pc 1).trans h
  | t32 =>
    simp only [hs, beq_iff_eq, bit0_eq_zero_iff] at h ⊢
    rw [BitVec.toNat_add, BitVec.toNat_ofNat]
    omega

/-- Settles O47: memory is kept, `pc + 4` is aligned as `pc` was, and the inputs left are among those that were there. -/
theorem everyStepKeepsInv : Obligations.EveryStepKeepsInv := by
  unfold Obligations.EveryStepKeepsInv
  rintro s t ⟨hmem, hpc, hconds⟩ h
  obtain ⟨-, i, -, hexec⟩ := step_next s t h
  obtain ⟨regs, dregs, draws, rfl⟩ := exec_next_frame i s t hexec
  refine ⟨hmem, pcAligned_of_advance s _ rfl rfl hpc, ?_⟩
  rw [List.all_eq_true] at hconds ⊢
  dsimp only
  split
  · exact fun c hc => hconds c (List.mem_of_mem_tail hc)
  · exact hconds

/-- Settles O12: a misaligned `pc` stops the step before the fetch; a step that completes adds 4. -/
theorem stepChecksPcAlignment : Obligations.StepChecksPcAlignment := by
  unfold Obligations.StepChecksPcAlignment
  refine ⟨fun s hiset hpc => ?_, fun s hiset hpc => ?_, fun s t h => ⟨(step_next s t h).1, ?_⟩⟩
  · have hmis : pcAligned s = false := by simpa [pcAligned, hiset, wordAligned] using hpc
    simp [step, hmis]
  · have hmis : pcAligned s = false := by simpa [pcAligned, hiset] using hpc
    simp [step, hmis]
  · rw [step_next_pc s t h, BitVec.toNat_add]
    rfl

/-- Settles O48: the reset state has no memory entry, `pc` 0 and no `it_cond` input. -/
theorem resetMeetsInv : Obligations.ResetMeetsInv := by
  unfold Obligations.ResetMeetsInv
  exact ⟨reset_mem_wf, by decide, rfl⟩

/-- A register number that is not the PC is one of `R[0..14]`. -/
theorem toNat_lt_of_ne_pc (n : BitVec 4) (hn : n ≠ 15#4) : n.toNat < 15 := by
  have hne : n.toNat ≠ 15 := fun c => hn (BitVec.eq_of_toNat_eq c)
  omega

/-- Settles O49: every parameter is open, and each register file is a list of zeros. -/
theorem resetAssumesNoParameter : Obligations.ResetAssumesNoParameter := by
  unfold Obligations.ResetAssumesNoParameter
  refine ⟨rfl, rfl, rfl, rfl, rfl, rfl, rfl, rfl, fun n hn => ?_, fun r => ?_⟩
  · simp [readReg, hn, State.reset, toNat_lt_of_ne_pc n hn]
  · by_cases hr : r < 32
    · simp [readD, State.reset, hr]
    · exact readD_ge _ r (by omega)

end Sys2Proof.Machine

/-! SUPPORT. Runs (O50, O51): what every step keeps holds along a run, where `pc` is after a number of steps, and when a
run first reaches the address a claim names (70_reset_and_hazards.md R119, R120). -/

namespace Sys2Proof.Machine

/-! ### Along a run -/

/-- What holds at launch and every step keeps holds after any number of steps. -/
theorem runSteps_invariant {P : State → Prop} (hstep : ∀ s t, P s → step s = .next t → P t) (count : Nat) (s t : State)
    (hs : P s) (h : runSteps count s = .next t) : P t := by
  induction count generalizing s with
  | zero => cases h; exact hs
  | succ count ih =>
    simp only [runSteps] at h
    cases hnext : step s with
    | next u => rw [hnext] at h; exact ih u (hstep s u hs hnext) h
    | fault f => rw [hnext] at h; cases h
    | refused why => rw [hnext] at h; cases h

/-- A step keeps the result of the enable check: no instruction writes one of its inputs. -/
theorem step_keeps_fpEnabled (s t : State) (hs : FpEnabled s) (h : step s = .next t) : FpEnabled t := by
  obtain ⟨-, i, -, hexec⟩ := step_next s t h
  obtain ⟨regs, dregs, draws, rfl⟩ := exec_next_frame i s t hexec
  exact hs

/-- Settles O50: the enable check is kept by every step, so it holds along the run. -/
theorem enabledAtLaunchIsEnabledThroughout : Obligations.EnabledAtLaunchIsEnabledThroughout := by
  unfold Obligations.EnabledAtLaunchIsEnabledThroughout
  exact fun count s hs j _ t h => runSteps_invariant step_keeps_fpEnabled j s t hs h

/-- The steps of a run that completes more than one step. -/
theorem runSteps_succ (count : Nat) (s t : State) (h : runSteps (count + 1) s = .next t) :
    ∃ u, step s = .next u ∧ runSteps count u = .next t := by
  simp only [runSteps] at h
  cases hnext : step s with
  | next u => rw [hnext] at h; exact ⟨u, rfl, h⟩
  | fault f => rw [hnext] at h; cases h
  | refused why => rw [hnext] at h; cases h

/-- After `count` steps that complete, `pc` is `4 * count` further. -/
theorem runSteps_pc (count : Nat) (s t : State) (h : runSteps count s = .next t) :
    t.pc = s.pc + BitVec.ofNat 32 (4 * count) := by
  induction count generalizing s with
  | zero => cases h; simp
  | succ count ih =>
    obtain ⟨u, hstep, hrest⟩ := runSteps_succ count s t h
    rw [ih u hrest, step_next_pc s u hstep, show (4#32 : Word) = BitVec.ofNat 32 4 from rfl, word_add_ofNat]
    congr 2
    omega

/-- A run that completes some steps completes any fewer. -/
theorem runSteps_fewer (count j : Nat) (s t : State) (hj : j ≤ count) (h : runSteps count s = .next t) :
    ∃ u, runSteps j s = .next u := by
  induction j generalizing count s with
  | zero => exact ⟨s, rfl⟩
  | succ j ih =>
    obtain ⟨rest, rfl⟩ : ∃ rest, count = rest + 1 := ⟨count - 1, by omega⟩
    obtain ⟨u, hstep, hrest⟩ := runSteps_succ rest s t h
    obtain ⟨v, hv⟩ := ih rest u (by omega) hrest
    exact ⟨v, (runSteps_next j s u hstep).trans hv⟩

/-! ### The first state at the named address -/

/-- After `count` steps that complete the run from `s` is in `t`, at the address `goal`, and was not there before. -/
def FirstReaches (s : State) (goal : Word) (count : Nat) (t : State) : Prop :=
  runSteps count s = .next t ∧ t.pc = goal ∧ ∀ j < count, ∀ u, runSteps j s = .next u → u.pc ≠ goal

/-- Away from the address, a run first reaches it one step later than the run after its first step. -/
theorem firstReaches_succ_iff (s u t : State) (goal : Word) (count : Nat) (hpc : s.pc ≠ goal) (hstep : step s = .next u) :
    FirstReaches s goal (count + 1) t ↔ FirstReaches u goal count t := by
  unfold FirstReaches
  rw [runSteps_next count s u hstep]
  refine and_congr_right fun _ => and_congr_right fun _ => ⟨fun h j hj v hv => ?_, fun h j hj v hv => ?_⟩
  · exact h (j + 1) (by omega) v ((runSteps_next j s u hstep).trans hv)
  · cases j with
    | zero => cases hv; exact hpc
    | succ j => exact h j (by omega) v ((runSteps_next j s u hstep).symm.trans hv)

/-- A run at the address first reaches it there. -/
theorem firstReaches_here (s : State) (goal : Word) (h : s.pc = goal) : FirstReaches s goal 0 s :=
  ⟨rfl, h, fun j hj => absurd hj (Nat.not_lt_zero j)⟩

/-- A run that has ended in a state first reached the address there. -/
theorem firstReaches_of_runTo (goal : Word) (n : Nat) (s t : State) (h : runTo goal n s = some (.next t)) :
    ∃ count, FirstReaches s goal count t := by
  induction n generalizing s with
  | zero =>
    simp only [runTo] at h
    split at h
    · next hpc => cases h; exact ⟨0, firstReaches_here _ goal hpc⟩
    · cases h
  | succ n ih =>
    by_cases hpc : s.pc = goal
    · rw [← hpc, runTo_here] at h
      cases h
      exact ⟨0, firstReaches_here _ goal hpc⟩
    · cases hstep : step s with
      | next u =>
        rw [runTo_next goal n s u hpc hstep] at h
        obtain ⟨count, hcount⟩ := ih u h
        exact ⟨count + 1, (firstReaches_succ_iff s u t goal count hpc hstep).2 hcount⟩
      | fault f => simp [runTo, hpc, hstep] at h
      | refused why => simp [runTo, hpc, hstep] at h

/-- A run that first reaches the address in a state has ended there. -/
theorem runTo_of_firstReaches (goal : Word) (count : Nat) (s t : State) (h : FirstReaches s goal count t) :
    runTo goal count s = some (.next t) := by
  induction count generalizing s with
  | zero =>
    obtain ⟨hrun, hpc, -⟩ := h
    cases hrun
    rw [← hpc]
    exact runTo_here 0 _
  | succ count ih =>
    obtain ⟨hrun, -, hfirst⟩ := id h
    obtain ⟨u, hstep, -⟩ := runSteps_succ count s t hrun
    have hpc : s.pc ≠ goal := hfirst 0 (by omega) s rfl
    rw [runTo_next goal count s u hpc hstep]
    exact ih u ((firstReaches_succ_iff s u t goal count hpc hstep).1 h)

/-- A run ends in a state exactly when it first reaches the address there. -/
theorem runEnds_next_iff (s t : State) (goal : Word) :
    RunEnds s goal (.next t) ↔ ∃ count, FirstReaches s goal count t :=
  ⟨fun ⟨n, h⟩ => firstReaches_of_runTo goal n s t h, fun ⟨count, h⟩ => ⟨count, runTo_of_firstReaches goal count s t h⟩⟩

/-- The distance to an address at an offset is the offset modulo 2^32. -/
theorem distance_of_offset (a : Word) (off : Nat) : (a + BitVec.ofNat 32 off - a).toNat = off % 2 ^ 32 := by
  rw [add_sub_cancel_left, BitVec.toNat_ofNat]

/-- The step at which a run first reaches the address is a quarter of the distance to it. -/
theorem firstReaches_iff (s t : State) (goal : Word) (count : Nat) :
    FirstReaches s goal count t ↔
      count = (goal - s.pc).toNat / 4 ∧ runSteps count s = .next t ∧ t.pc = goal := by
  constructor
  · rintro ⟨hrun, rfl, hfirst⟩
    refine ⟨?_, hrun, rfl⟩
    have hpc := runSteps_pc count s t hrun
    have hsmall : count < 0x40000000 := by
      by_contra hbig
      obtain ⟨u, hu⟩ := runSteps_fewer count (count - 0x40000000) s t (Nat.sub_le _ _) hrun
      have hwrap : BitVec.ofNat 32 (4 * (count - 0x40000000)) = BitVec.ofNat 32 (4 * count) := by
        apply BitVec.eq_of_toNat_eq
        rw [BitVec.toNat_ofNat, BitVec.toNat_ofNat]
        omega
      exact hfirst _ (by omega) u hu (by rw [runSteps_pc _ s u hu, hpc, hwrap])
    rw [hpc, distance_of_offset]
    omega
  · rintro ⟨hcount, hrun, rfl⟩
    refine ⟨hrun, rfl, fun j hj u hu hpc => ?_⟩
    have hdist := distance_of_offset s.pc (4 * j)
    rw [← runSteps_pc j s u hu, hpc] at hdist
    omega

/-- Settles O51: the end is the first state at the address, its step is a quarter of the distance, and an ended run stays
ended. -/
theorem runEndsWhenPcFirstReachesTheNamedAddress : Obligations.RunEndsWhenPcFirstReachesTheNamedAddress := by
  unfold Obligations.RunEndsWhenPcFirstReachesTheNamedAddress
  refine fun s goal => ⟨fun t => runEnds_next_iff s t goal, fun t => ?_, ?_⟩
  · simp only [runEnds_next_iff, firstReaches_iff, exists_eq_left]
  · rintro r r' ⟨n, hn⟩ ⟨m, hm⟩
    have hr := runTo_mono goal n (max n m) s r (Nat.le_max_left n m) hn
    have hr' := runTo_mono goal m (max n m) s r' (Nat.le_max_right n m) hm
    exact Option.some.inj (hr.symm.trans hr')

end Sys2Proof.Machine

/-! SUPPORT. The words of the opcode map by their masks and matches (O3 to O8, O19): when a masked word has given fixed bits,
field by field, and which rows a word with these fields decodes to (30_encoding.md R58 to R66). -/

namespace Sys2Proof

/-! ### Masks, field by field -/

/-- A masked pair of fields equals a pair of fields exactly when each masked field equals its field. -/
theorem and_fields_iff (a b : Nat) (x m z : BitVec a) (y n v : BitVec b) :
    (x ++ y) &&& (m ++ n) = z ++ v ↔ x &&& m = z ∧ y &&& n = v := by
  refine ⟨fun h => ?_, fun ⟨hx, hy⟩ => and_fields a b x m z y n v hx hy⟩
  rw [BitVec.and_append] at h
  have hupper := congrArg (BitVec.extractLsb' b a) h
  rw [field_upper _ _ b a (Nat.le_refl b), field_upper _ _ b a (Nat.le_refl b), Nat.sub_self, BitVec.extractLsb'_eq_self,
    BitVec.extractLsb'_eq_self] at hupper
  rw [hupper] at h
  exact ⟨hupper, (BitVec.append_right_inj z).1 h⟩

/-- A word under a mask that keeps the bits 27:25, `L` and 11:8, the bits `mt` of the top, `mp`, `mu` and `mw` of `P`, `U` and
`W`, and `mi` of `imm8`, equals a match exactly when the word is in the load space and each kept field is as in the match. -/
theorem masked_iff (w : BitVec 32) (mt ct : BitVec 4) (mp cp mu cu mw cw : BitVec 1) (size : BitVec 2) (mi ci : BitVec 8) :
    w &&& (mt ++ 0b111#3 ++ mp ++ mu ++ 0#1 ++ mw ++ 1#1 ++ 0#4 ++ 0#4 ++ 0b11#2 ++ 0b11#2 ++ mi : BitVec 32) =
        loadWord ct cp cu 0#1 cw 0#4 0#4 size ci ↔
      w.extractLsb' 28 4 &&& mt = ct ∧ inLoadSpace w = true ∧ w.extractLsb' 24 1 &&& mp = cp ∧
      w.extractLsb' 23 1 &&& mu = cu ∧ w.extractLsb' 21 1 &&& mw = cw ∧ w.extractLsb' 8 2 = size ∧
      w.extractLsb' 0 8 &&& mi = ci := by
  have hw : w.extractLsb' 28 4 ++ w.extractLsb' 25 3 ++ w.extractLsb' 24 1 ++ w.extractLsb' 23 1 ++ w.extractLsb' 22 1 ++
      w.extractLsb' 21 1 ++ w.extractLsb' 20 1 ++ w.extractLsb' 16 4 ++ w.extractLsb' 12 4 ++ w.extractLsb' 10 2 ++
      w.extractLsb' 8 2 ++ w.extractLsb' 0 8 = w := by
    rw [field_join w 28 4 25 3 rfl, field_join w 25 _ 24 1 rfl, field_join w 24 _ 23 1 rfl, field_join w 23 _ 22 1 rfl,
      field_join w 22 _ 21 1 rfl, field_join w 21 _ 20 1 rfl, field_join w 20 _ 16 4 rfl, field_join w 16 _ 12 4 rfl,
      field_join w 12 _ 10 2 rfl, field_join w 10 _ 8 2 rfl, field_join w 8 _ 0 8 rfl]
    exact BitVec.extractLsb'_eq_self
  conv_lhs => rw [← hw]
  unfold loadWord
  rw [and_fields_iff 24 8, and_fields_iff 22 2, and_fields_iff 20 2, and_fields_iff 16 4, and_fields_iff 12 4,
    and_fields_iff 11 1, and_fields_iff 10 1, and_fields_iff 9 1, and_fields_iff 8 1, and_fields_iff 7 1,
    and_fields_iff 4 3]
  rw [show (0b111#3 : BitVec 3) = BitVec.allOnes 3 from rfl, show (0b11#2 : BitVec 2) = BitVec.allOnes 2 from rfl,
    show (1#1 : BitVec 1) = BitVec.allOnes 1 from rfl, inLoadSpace_iff]
  simp only [BitVec.and_allOnes, BitVec.and_zero, and_true]
  tauto

/-- A masked bit 0 is bit 0. -/
theorem masked_bit0_iff (w : BitVec 32) (b : BitVec 1) :
    w.extractLsb' 0 8 &&& 1#8 = b.setWidth 8 ↔ w.extractLsb' 0 1 = b := by
  rw [← imm8_of_parts w _ rfl, imm8_bit0]
  rcases bit_cases (w.extractLsb' 0 1) with h | h <;> rcases bit_cases b with rfl | rfl <;> simp [h]

/-- A bit under the mask 1 is that bit. -/
theorem bit_and_one (b : BitVec 1) : b &&& 1#1 = b := BitVec.and_allOnes

/-! ### The rows of each class, by their masks

`mw` is 1 in a row with a fixed `W` and 0 in a row whose `W` is an operand. -/

section Classes

variable (w : BitVec 32) (p u mw cw : BitVec 1)

/-- The words that decode in class A1 with `P`, `U` and the kept part of `W` as given. -/
theorem decode_classA1_iff :
    (∃ c d x rn vd m, x &&& mw = cw ∧ decodeWord .a32 w = .ok (decodeA1 c p u d x rn vd m)) ↔
    w &&& (0#4 ++ 0b111#3 ++ 1#1 ++ 1#1 ++ 0#1 ++ mw ++ 1#1 ++ 0#4 ++ 0#4 ++ 0b11#2 ++ 0b11#2 ++ 1#8 : BitVec 32) =
      loadWord 0#4 p u 0#1 cw 0#4 0#4 0b11#2 ((0#1).setWidth 8) ∧ w.extractLsb' 28 4 ≠ 15#4 := by
  constructor
  · rintro ⟨c, d, x, rn, vd, m, rfl, h⟩
    refine ⟨?_, ((decodeA32_ok w _).1 h).1⟩
    obtain ⟨-, -, rfl⟩ := (decodeWord_eq_ok_iff _ _ _).1 h
    obtain ⟨-, -, henc⟩ := encode_decodeA1 c p u d x rn vd m
    rw [henc, loadWord_and, imm8_bit0, BitVec.and_zero, bit_and_one, bit_and_one]
  · rintro ⟨hmask, hcond⟩
    rw [masked_iff, masked_bit0_iff, bit_and_one, bit_and_one] at hmask
    obtain ⟨-, hspace, rfl, rfl, hw, hsize, h0⟩ := hmask
    exact ⟨_, _, _, _, _, _, hw, (decodeA32_ok w _).2 ⟨hcond, hspace, .inr (.inl ⟨hsize, h0, rfl⟩)⟩⟩

/-- The words that decode in class A2 with `P`, `U` and the kept part of `W` as given. -/
theorem decode_classA2_iff :
    (∃ c d x rn vd m, x &&& mw = cw ∧ decodeWord .a32 w = .ok (decodeA2 c p u d x rn vd m)) ↔
    w &&& (0#4 ++ 0b111#3 ++ 1#1 ++ 1#1 ++ 0#1 ++ mw ++ 1#1 ++ 0#4 ++ 0#4 ++ 0b11#2 ++ 0b11#2 ++ 0#8 : BitVec 32) =
      loadWord 0#4 p u 0#1 cw 0#4 0#4 0b10#2 0#8 ∧ w.extractLsb' 28 4 ≠ 15#4 := by
  constructor
  · rintro ⟨c, d, x, rn, vd, m, rfl, h⟩
    refine ⟨?_, ((decodeA32_ok w _).1 h).1⟩
    obtain ⟨-, -, rfl⟩ := (decodeWord_eq_ok_iff _ _ _).1 h
    obtain ⟨-, -, henc⟩ := encode_decodeA2 c p u d x rn vd m
    rw [henc, loadWord_and, BitVec.and_zero, BitVec.and_zero, bit_and_one, bit_and_one]
  · rintro ⟨hmask, hcond⟩
    rw [masked_iff, bit_and_one, bit_and_one] at hmask
    obtain ⟨-, hspace, rfl, rfl, hw, hsize, -⟩ := hmask
    exact ⟨_, _, _, _, _, _, hw, (decodeA32_ok w _).2 ⟨hcond, hspace, .inr (.inr ⟨hsize, rfl⟩)⟩⟩

/-- The words that decode in class T1 with `P`, `U` and the kept part of `W` as given. -/
theorem decode_classT1_iff :
    (∃ d x rn vd m, x &&& mw = cw ∧ decodeWord .t32 w = .ok (decodeT1 p u d x rn vd m)) ↔
    w &&& (15#4 ++ 0b111#3 ++ 1#1 ++ 1#1 ++ 0#1 ++ mw ++ 1#1 ++ 0#4 ++ 0#4 ++ 0b11#2 ++ 0b11#2 ++ 1#8 : BitVec 32) =
      loadWord t32Top p u 0#1 cw 0#4 0#4 0b11#2 ((0#1).setWidth 8) := by
  constructor
  · rintro ⟨d, x, rn, vd, m, rfl, h⟩
    obtain ⟨-, -, rfl⟩ := (decodeWord_eq_ok_iff _ _ _).1 h
    obtain ⟨-, -, henc⟩ := encode_decodeT1 p u d x rn vd m
    rw [henc, loadWord_and, imm8_bit0, bit_and_one, bit_and_one]
    rfl
  · intro hmask
    rw [masked_iff, masked_bit0_iff, bit_and_one, bit_and_one] at hmask
    obtain ⟨htop, hspace, rfl, rfl, hw, hsize, h0⟩ := hmask
    exact ⟨_, _, _, _, _, hw, (decodeT32_ok w _).2
      ⟨BitVec.and_allOnes.symm.trans htop, hspace, .inr (.inl ⟨hsize, h0, rfl⟩)⟩⟩

/-- The words that decode in class T2 with `P`, `U` and the kept part of `W` as given. -/
theorem decode_classT2_iff :
    (∃ d x rn vd m, x &&& mw = cw ∧ decodeWord .t32 w = .ok (decodeT2 p u d x rn vd m)) ↔
    w &&& (15#4 ++ 0b111#3 ++ 1#1 ++ 1#1 ++ 0#1 ++ mw ++ 1#1 ++ 0#4 ++ 0#4 ++ 0b11#2 ++ 0b11#2 ++ 0#8 : BitVec 32) =
      loadWord t32Top p u 0#1 cw 0#4 0#4 0b10#2 0#8 := by
  constructor
  · rintro ⟨d, x, rn, vd, m, rfl, h⟩
    obtain ⟨-, -, rfl⟩ := (decodeWord_eq_ok_iff _ _ _).1 h
    obtain ⟨-, -, henc⟩ := encode_decodeT2 p u d x rn vd m
    rw [henc, loadWord_and, BitVec.and_zero, bit_and_one, bit_and_one]
    rfl
  · intro hmask
    rw [masked_iff, bit_and_one, bit_and_one] at hmask
    obtain ⟨htop, hspace, rfl, rfl, hw, hsize, -⟩ := hmask
    exact ⟨_, _, _, _, _, hw, (decodeT32_ok w _).2
      ⟨BitVec.and_allOnes.symm.trans htop, hspace, .inr (.inr ⟨hsize, rfl⟩)⟩⟩

end Classes

/-- Settles O4: each named encoding is one row of its class. -/
theorem namedEncodingsMatchTheirMasks : Obligations.NamedEncodingsMatchTheirMasks := by
  unfold Obligations.NamedEncodingsMatchTheirMasks
  intro w
  refine ⟨?_, ?_, ?_, ?_, ?_, ?_, ?_, ?_⟩
  · simpa [loadWord, decodeA1, bit_and_one] using decode_classA1_iff w 1#1 0#1 1#1 1#1
  · simpa [loadWord, decodeA1] using decode_classA1_iff w 0#1 1#1 0#1 0#1
  · simpa [loadWord, decodeA2, bit_and_one] using decode_classA2_iff w 1#1 0#1 1#1 1#1
  · simpa [loadWord, decodeA2] using decode_classA2_iff w 0#1 1#1 0#1 0#1
  · simpa [loadWord, decodeT1, t32Top, bit_and_one] using decode_classT1_iff w 1#1 0#1 1#1 1#1
  · simpa [loadWord, decodeT1, t32Top] using decode_classT1_iff w 0#1 1#1 0#1 0#1
  · simpa [loadWord, decodeT2, t32Top, bit_and_one] using decode_classT2_iff w 1#1 0#1 1#1 1#1
  · simpa [loadWord, decodeT2, t32Top] using decode_classT2_iff w 0#1 1#1 0#1 0#1

/-- Settles O5: each UNDEFINED row is one row of its class. -/
theorem undefinedEncodingsMatchTheirMasks : Obligations.UndefinedEncodingsMatchTheirMasks := by
  unfold Obligations.UndefinedEncodingsMatchTheirMasks
  intro w
  refine ⟨?_, ?_, ?_, ?_, ?_, ?_, ?_, ?_⟩
  · simpa [loadWord, decodeA1, bit_and_one] using decode_classA1_iff w 0#1 0#1 1#1 1#1
  · simpa [loadWord, decodeA1, bit_and_one] using decode_classA1_iff w 1#1 1#1 1#1 1#1
  · simpa [loadWord, decodeA2, bit_and_one] using decode_classA2_iff w 0#1 0#1 1#1 1#1
  · simpa [loadWord, decodeA2, bit_and_one] using decode_classA2_iff w 1#1 1#1 1#1 1#1
  · simpa [loadWord, decodeT1, t32Top, bit_and_one] using decode_classT1_iff w 0#1 0#1 1#1 1#1
  · simpa [loadWord, decodeT1, t32Top, bit_and_one] using decode_classT1_iff w 1#1 1#1 1#1 1#1
  · simpa [loadWord, decodeT2, t32Top, bit_and_one] using decode_classT2_iff w 0#1 0#1 1#1 1#1
  · simpa [loadWord, decodeT2, t32Top, bit_and_one] using decode_classT2_iff w 1#1 1#1 1#1 1#1

end Sys2Proof

/-! SUPPORT. The redirect rows and the rejected words (O3, O6, O7, O8, O19): a word that fits a diagram is redirected by its
`P`, `U`, `W` (30_encoding.md R58, R62), the words of the load space outside the diagrams are those of FLDM*X (R64), and a
word outside the load space is rejected (R63, R65). -/

namespace Sys2Proof.Machine

/-! ### The redirect rows -/

/-- An UNDEFINED row is no redirect row. -/
theorem redirect_of_isUndefined (i : Instr) (h : i.isUndefined = true) : i.redirect = none := by
  cases i <;> cases h <;> rfl

/-- A VLDM row is no redirect row. -/
theorem redirect_of_transfer (i : Instr) (t : Transfer) (h : i.transfer = some t) : i.redirect = none := by
  cases i <;> cases h <;> rfl

/-- A row of the table redirects to the 64-bit move exactly where `P`, `U` and `W` are 0, to VLDR exactly where `P` is 1 and
`W` is 0, and never to FLDM*X. -/
theorem PuwOutcome.redirect_iff {block : Bool → Bool → Transfer} {i : Instr} {p u w : BitVec 1}
    (h : PuwOutcome block i p u w) :
    (i.redirect = some .move64 ↔ p = 0#1 ∧ u = 0#1 ∧ w = 0#1) ∧
    (i.redirect = some .vldr ↔ p = 1#1 ∧ w = 0#1) ∧ i.redirect ≠ some .fldmx := by
  cases h with
  | move64 hsee => simp [hsee]
  | vldr hsee => simp [hsee]
  | undefined hundef => simp [redirect_of_isUndefined i hundef]
  | incrementAfter hvldm => simp [redirect_of_transfer i _ hvldm]
  | decrementBefore hvldm => simp [redirect_of_transfer i _ hvldm]

/-- A word is one of the space of FLDM*X (30_encoding.md R64). -/
def FitsFldmx (k : InstrSet) (w : BitVec 32) : Prop :=
  (k = .a32 → w.extractLsb' 28 4 ≠ 0b1111#4) ∧ (k = .t32 → w.extractLsb' 28 4 = 0b1110#4) ∧ inLoadSpace w = true ∧
  w.extractLsb' 8 2 = 0b11#2 ∧ w.extractLsb' 0 1 = 1#1

/-- A word that decodes fits a diagram, or it is an FLDM*X word. -/
theorem fitsDiagram_or_fldmx (k : InstrSet) (w : BitVec 32) (i : Instr) (h : decodeWord k w = .ok i) :
    FitsDiagram k w ∨ (FitsFldmx k w ∧ i.redirect = some .fldmx) := by
  cases k with
  | a32 =>
    obtain ⟨hcond, hspace, ⟨h3, h0, rfl⟩ | ⟨h3, h0, -⟩ | ⟨h2, -⟩⟩ := (decodeA32_ok w i).1 h
    · exact .inr ⟨⟨fun _ => hcond, nofun, hspace, h3, h0⟩, rfl⟩
    all_goals obtain ⟨h25, h20, h10⟩ := (inLoadSpace_iff w).1 hspace
    · exact .inl ⟨fun _ => hcond, nofun, h25, h20, h10, .inl ⟨h3, h0⟩⟩
    · exact .inl ⟨fun _ => hcond, nofun, h25, h20, h10, .inr h2⟩
  | t32 =>
    obtain ⟨htop, hspace, ⟨h3, h0, rfl⟩ | ⟨h3, h0, -⟩ | ⟨h2, -⟩⟩ := (decodeT32_ok w i).1 h
    · exact .inr ⟨⟨nofun, fun _ => htop, hspace, h3, h0⟩, rfl⟩
    all_goals obtain ⟨h25, h20, h10⟩ := (inLoadSpace_iff w).1 hspace
    · exact .inl ⟨nofun, fun _ => htop, h25, h20, h10, .inl ⟨h3, h0⟩⟩
    · exact .inl ⟨nofun, fun _ => htop, h25, h20, h10, .inr h2⟩

/-- The words that decode to a row redirected to `o`, where the table says so by `P`, `U` and `W`. -/
theorem decode_redirect_iff (k : InstrSet) (w : BitVec 32) (o : OtherInstr) (Q : BitVec 1 → BitVec 1 → BitVec 1 → Prop)
    (ho : o ≠ .fldmx) (hQ : ∀ {block i p u x}, PuwOutcome block i p u x → (i.redirect = some o ↔ Q p u x)) :
    (∃ i, decodeWord k w = .ok i ∧ i.redirect = some o) ↔
      FitsDiagram k w ∧ Q (w.extractLsb' 24 1) (w.extractLsb' 23 1) (w.extractLsb' 21 1) := by
  constructor
  · rintro ⟨i, hi, hsee⟩
    have hfits : FitsDiagram k w := by
      rcases fitsDiagram_or_fldmx k w i hi with hfits | ⟨-, hfldmx⟩
      · exact hfits
      · exact absurd (Option.some.inj (hsee.symm.trans hfldmx)) ho
    obtain ⟨i', hi', hrow⟩ := decodeWord_of_fitsDiagram k w hfits
    obtain rfl : i = i' := Except.ok.inj (hi.symm.trans hi')
    exact ⟨hfits, (hQ hrow).1 hsee⟩
  · rintro ⟨hfits, hq⟩
    obtain ⟨i, hi, hrow⟩ := decodeWord_of_fitsDiagram k w hfits
    exact ⟨i, hi, (hQ hrow).2 hq⟩

/-- The words that decode to an FLDM*X row. -/
theorem decode_fldmx_iff (k : InstrSet) (w : BitVec 32) :
    (∃ i, decodeWord k w = .ok i ∧ i.redirect = some .fldmx) ↔ FitsFldmx k w := by
  constructor
  · rintro ⟨i, hi, hsee⟩
    rcases fitsDiagram_or_fldmx k w i hi with hfits | ⟨hfldmx, -⟩
    · obtain ⟨i', hi', hrow⟩ := decodeWord_of_fitsDiagram k w hfits
      obtain rfl : i = i' := Except.ok.inj (hi.symm.trans hi')
      exact absurd hsee hrow.redirect_iff.2.2
    · exact hfldmx
  · rintro ⟨ha32, ht32, hspace, h3, h0⟩
    cases k with
    | a32 => exact ⟨_, (decodeA32_ok w _).2 ⟨ha32 rfl, hspace, .inl ⟨h3, h0, rfl⟩⟩, rfl⟩
    | t32 => exact ⟨_, (decodeT32_ok w _).2 ⟨ht32 rfl, hspace, .inl ⟨h3, h0, rfl⟩⟩, rfl⟩

/-! ### The masks of the redirect rows -/

/-- A top under the mask 1111 is that top. -/
theorem top_and_ones (top : BitVec 4) : top &&& 15#4 = top := BitVec.and_allOnes

section Masks

variable (w : BitVec 32) (mp cp mu cu mw cw : BitVec 1)

/-- A word fits a diagram, with the kept parts of `P`, `U` and `W` as given, exactly when it matches one of two masks. -/
theorem fitsDiagram_masked_iff (k : InstrSet) (mt ct : BitVec 4)
    (htop : (k = .a32 ∧ mt = 0#4 ∧ ct = 0#4) ∨ (k = .t32 ∧ mt = 15#4 ∧ ct = 14#4)) :
    (FitsDiagram k w ∧ w.extractLsb' 24 1 &&& mp = cp ∧ w.extractLsb' 23 1 &&& mu = cu ∧ w.extractLsb' 21 1 &&& mw = cw) ↔
    (w &&& (mt ++ 0b111#3 ++ mp ++ mu ++ 0#1 ++ mw ++ 1#1 ++ 0#4 ++ 0#4 ++ 0b11#2 ++ 0b11#2 ++ 1#8 : BitVec 32) =
        loadWord ct cp cu 0#1 cw 0#4 0#4 0b11#2 ((0#1).setWidth 8) ∨
      w &&& (mt ++ 0b111#3 ++ mp ++ mu ++ 0#1 ++ mw ++ 1#1 ++ 0#4 ++ 0#4 ++ 0b11#2 ++ 0b11#2 ++ 0#8 : BitVec 32) =
        loadWord ct cp cu 0#1 cw 0#4 0#4 0b10#2 0#8) ∧ (k = .a32 → w.extractLsb' 28 4 ≠ 15#4) := by
  rw [masked_iff, masked_iff, masked_bit0_iff, BitVec.and_zero, inLoadSpace_iff]
  unfold FitsDiagram
  rcases htop with ⟨rfl, rfl, rfl⟩ | ⟨rfl, rfl, rfl⟩
  · simp only [BitVec.and_zero]
    tauto
  · simp only [top_and_ones, reduceCtorEq]
    tauto

/-- A word is one of FLDM*X exactly when it matches the mask of its instruction set. -/
theorem fitsFldmx_masked_iff (k : InstrSet) (mt ct : BitVec 4)
    (htop : (k = .a32 ∧ mt = 0#4 ∧ ct = 0#4) ∨ (k = .t32 ∧ mt = 15#4 ∧ ct = 14#4)) :
    FitsFldmx k w ↔
    w &&& (mt ++ 0b111#3 ++ 0#1 ++ 0#1 ++ 0#1 ++ 0#1 ++ 1#1 ++ 0#4 ++ 0#4 ++ 0b11#2 ++ 0b11#2 ++ 1#8 : BitVec 32) =
        loadWord ct 0#1 0#1 0#1 0#1 0#4 0#4 0b11#2 ((1#1).setWidth 8) ∧ (k = .a32 → w.extractLsb' 28 4 ≠ 15#4) := by
  rw [masked_iff, masked_bit0_iff]
  unfold FitsFldmx
  rcases htop with ⟨rfl, rfl, rfl⟩ | ⟨rfl, rfl, rfl⟩
  · simp only [BitVec.and_zero]
    tauto
  · simp only [top_and_ones, BitVec.and_zero, reduceCtorEq]
    tauto

end Masks

/-- The A32 words of FLDM*X, by their mask. -/
theorem fitsFldmx_a32_iff (w : BitVec 32) :
    FitsFldmx .a32 w ↔ w &&& 0x0E100F01#32 = 0x0C100B01#32 ∧ w.extractLsb' 28 4 ≠ 15#4 := by
  simpa [loadWord] using fitsFldmx_masked_iff w .a32 0#4 0#4 (.inl ⟨rfl, rfl, rfl⟩)

/-- The T32 words of FLDM*X, by their mask. -/
theorem fitsFldmx_t32_iff (w : BitVec 32) : FitsFldmx .t32 w ↔ w &&& 0xFE100F01#32 = 0xEC100B01#32 := by
  simpa [loadWord] using fitsFldmx_masked_iff w .t32 15#4 14#4 (.inr ⟨rfl, rfl, rfl⟩)

/-- Settles O6: the redirect rows are selected by `P`, `U` and `W`, or are those of FLDM*X. -/
theorem redirectWordsMatchTheirMasks : Obligations.RedirectWordsMatchTheirMasks := by
  unfold Obligations.RedirectWordsMatchTheirMasks
  intro w
  have hmove := fun k => decode_redirect_iff k w .move64 (fun p u x => p = 0#1 ∧ u = 0#1 ∧ x = 0#1) (by decide)
    fun hrow => hrow.redirect_iff.1
  have hvldr := fun k => decode_redirect_iff k w .vldr (fun p _ x => p = 1#1 ∧ x = 0#1) (by decide)
    fun hrow => hrow.redirect_iff.2.1
  have ha32 := fun mp cp mu cu mw cw =>
    fitsDiagram_masked_iff w mp cp mu cu mw cw .a32 0#4 0#4 (.inl ⟨rfl, rfl, rfl⟩)
  have ht32 := fun mp cp mu cu mw cw =>
    fitsDiagram_masked_iff w mp cp mu cu mw cw .t32 15#4 14#4 (.inr ⟨rfl, rfl, rfl⟩)
  refine ⟨(hmove .a32).trans ?_, (hvldr .a32).trans ?_, (decode_fldmx_iff .a32 w).trans (fitsFldmx_a32_iff w),
    (hmove .t32).trans ?_, (hvldr .t32).trans ?_, (decode_fldmx_iff .t32 w).trans (fitsFldmx_t32_iff w)⟩
  · simpa [loadWord, bit_and_one] using ha32 1#1 0#1 1#1 0#1 1#1 0#1
  · simpa [loadWord, bit_and_one] using ha32 1#1 1#1 0#1 0#1 1#1 0#1
  · simpa [loadWord, bit_and_one] using ht32 1#1 0#1 1#1 0#1 1#1 0#1
  · simpa [loadWord, bit_and_one] using ht32 1#1 1#1 0#1 0#1 1#1 0#1

/-- Settles O19: the words of the mask decode to the FLDM*X row, which is refused in every state. -/
theorem fldmxWordsAreRefusedByName : Obligations.FldmxWordsAreRefusedByName := by
  unfold Obligations.FldmxWordsAreRefusedByName
  refine fun w s => ⟨fun hmask hcond => ?_, fun hmask => ?_⟩
  · obtain ⟨i, hi, hsee⟩ := (decode_fldmx_iff .a32 w).2 ((fitsFldmx_a32_iff w).2 ⟨hmask, hcond⟩)
    exact ⟨i, hi, exec_fldmx i s hsee⟩
  · obtain ⟨i, hi, hsee⟩ := (decode_fldmx_iff .t32 w).2 ((fitsFldmx_t32_iff w).2 hmask)
    exact ⟨i, hi, exec_fldmx i s hsee⟩

/-! ### The rejected words -/

/-- The condition field 1111 is rejected before any other bit is read. -/
theorem decodeA32_cond1111 (w : BitVec 32) (h : w.extractLsb' 28 4 = 15#4) : decodeA32 w = .error .cond1111 := by
  simp [decodeA32, h]

/-- Past the condition field, an A32 word is rejected exactly when it is outside both register spaces. -/
theorem decodeA32_noDiagram_iff (w : BitVec 32) (h : w.extractLsb' 28 4 ≠ 15#4) :
    decodeA32 w = .error .noDiagram ↔
      ¬ (inLoadSpace w = true ∧ (w.extractLsb' 8 2 = 0b11#2 ∨ w.extractLsb' 8 2 = 0b10#2)) := by
  unfold decodeA32
  simp only [h, if_false]
  by_cases hspace : inLoadSpace w = true
  · by_cases h3 : w.extractLsb' 8 2 = 0b11#2
    · by_cases h0 : w.extractLsb' 0 1 = 1#1 <;> simp [hspace, h3, h0]
    · by_cases h2 : w.extractLsb' 8 2 = 0b10#2 <;> simp [hspace, h3, h2]
  · simp [hspace]

/-- A T32 word is rejected exactly when its top is not 1110 or it is outside both register spaces. -/
theorem decodeT32_noDiagram_iff (w : BitVec 32) :
    decodeT32 w = .error .noDiagram ↔ ¬ (w.extractLsb' 28 4 = 14#4 ∧ inLoadSpace w = true ∧
      (w.extractLsb' 8 2 = 0b11#2 ∨ w.extractLsb' 8 2 = 0b10#2)) := by
  unfold decodeT32
  by_cases htop : w.extractLsb' 28 4 = 14#4
  · by_cases hspace : inLoadSpace w = true
    · by_cases h3 : w.extractLsb' 8 2 = 0b11#2
      · by_cases h0 : w.extractLsb' 0 1 = 1#1 <;> simp [htop, hspace, h3, h0]
      · by_cases h2 : w.extractLsb' 8 2 = 0b10#2 <;> simp [htop, hspace, h3, h2]
    · simp [htop, hspace]
  · simp [htop]

/-- The mask of a register space of the load space: the top and `size`. -/
theorem spaceMask_iff (w : BitVec 32) (mt ct : BitVec 4) (size : BitVec 2) :
    w &&& (mt ++ 0b111#3 ++ 0#1 ++ 0#1 ++ 0#1 ++ 0#1 ++ 1#1 ++ 0#4 ++ 0#4 ++ 0b11#2 ++ 0b11#2 ++ 0#8 : BitVec 32) =
        loadWord ct 0#1 0#1 0#1 0#1 0#4 0#4 size 0#8 ↔
      w.extractLsb' 28 4 &&& mt = ct ∧ inLoadSpace w = true ∧ w.extractLsb' 8 2 = size := by
  simp [masked_iff]

/-- Settles O7: the masks are those of the two register spaces. -/
theorem otherWordsAreNotInSpec : Obligations.OtherWordsAreNotInSpec := by
  unfold Obligations.OtherWordsAreNotInSpec
  refine fun w => ⟨decodeA32_cond1111 w, fun hcond => (decodeA32_noDiagram_iff w hcond).trans (not_congr ?_),
    (decodeT32_noDiagram_iff w).trans (not_congr ?_)⟩
  · have h3 : w &&& 0x0E100F00#32 = 0x0C100B00#32 ↔ inLoadSpace w = true ∧ w.extractLsb' 8 2 = 0b11#2 := by
      simpa [loadWord] using spaceMask_iff w 0#4 0#4 0b11#2
    have h2 : w &&& 0x0E100F00#32 = 0x0C100A00#32 ↔ inLoadSpace w = true ∧ w.extractLsb' 8 2 = 0b10#2 := by
      simpa [loadWord] using spaceMask_iff w 0#4 0#4 0b10#2
    rw [h3, h2, and_or_left]
  · have h3 : w &&& 0xFE100F00#32 = 0xEC100B00#32 ↔
        w.extractLsb' 28 4 = 14#4 ∧ inLoadSpace w = true ∧ w.extractLsb' 8 2 = 0b11#2 := by
      simpa [loadWord, top_and_ones] using spaceMask_iff w 15#4 14#4 0b11#2
    have h2 : w &&& 0xFE100F00#32 = 0xEC100A00#32 ↔
        w.extractLsb' 28 4 = 14#4 ∧ inLoadSpace w = true ∧ w.extractLsb' 8 2 = 0b10#2 := by
      simpa [loadWord, top_and_ones] using spaceMask_iff w 15#4 14#4 0b10#2
    rw [h3, h2, and_or_left, and_or_left]

/-- Settles O8: the length of a T32 instruction is read from bits 7:3 of the second byte. -/
theorem shortT32HalfwordsAreRejected : Obligations.ShortT32HalfwordsAreRejected := by
  unfold Obligations.ShortT32HalfwordsAreRejected
  intro b0 b1 rest h29 h30 h31
  have hfive : (halfwordOfBytes b0 b1).extractLsb' 11 5 = b1.extractLsb' 3 5 := field_upper b1 b0 11 5 (by decide)
  simp [decode, beginsWideT32, hfive, h29, h30, h31]

/-- Settles O3: each word is evaluated. -/
theorem vectorWordsDecode : Obligations.VectorWordsDecode := by
  unfold Obligations.VectorWordsDecode
  decide

end Sys2Proof.Machine

/-! SUPPORT. The step on the bytes at `pc` (O11, O13, O14): it is the instruction they decode to, or the refusal of their
rejection, and a word placed where the machine fetches is the word it fetches (20_memory.md R48). -/

namespace Sys2Proof.Machine

/-! ### The step by what the decoder answers -/

/-- With an aligned `pc` a step is the instruction that the bytes decode to. -/
theorem step_of_decode (s : State) (i : Instr) (hpc : pcAligned s = true) (h : decode s.iset (fetchBytes s) = .ok i) :
    step s = exec i s := by
  rw [step, if_pos hpc, h]

/-- With an aligned `pc` a step on bytes that the decoder rejects is refused with its reason. -/
theorem step_of_reject (s : State) (why : DecodeReject) (hpc : pcAligned s = true)
    (h : decode s.iset (fetchBytes s) = .error why) : step s = .refused (.notInSpec why) := by
  rw [step, if_pos hpc, h]

/-- Settles O11: the step, with its two checks passed. -/
theorem stepRunsTheDecodedInstruction : Obligations.StepRunsTheDecodedInstruction := by
  unfold Obligations.StepRunsTheDecodedInstruction
  exact fun s i hpc _ h => step_of_decode s i hpc h

/-- The condition field of the A32 word at four bytes is the high digit of the last. -/
theorem cond_wordOfBytesA32 (b0 b1 b2 b3 : Byte) :
    (wordOfBytesA32 b0 b1 b2 b3).extractLsb' 28 4 = b3.extractLsb' 4 4 := by
  unfold wordOfBytesA32
  exact (field_upper _ b0 28 4 (by decide)).trans ((field_upper _ b1 20 4 (by decide)).trans
    (field_upper b3 b2 12 4 (by decide)))

/-- Settles O13: both clauses are the refusal of a rejection; the second is that of the condition field 1111. -/
theorem rejectedBytesRefuseTheStep : Obligations.RejectedBytesRefuseTheStep := by
  unfold Obligations.RejectedBytesRefuseTheStep
  refine fun s hpc => ⟨fun why h => step_of_reject s why hpc h, fun hiset hdigit => step_of_reject s _ hpc ?_⟩
  rw [hiset]
  exact decodeA32_cond1111 _ ((cond_wordOfBytesA32 ..).trans hdigit)

/-! ### A placed word -/

/-- Memory after bytes are written from an address upward: at each address the byte written there, elsewhere what it
held. -/
theorem read_writeBytes (bs : List Byte) (m : Memory) (a x : Word) (hm : m.wf = true) (hlen : bs.length ≤ 2 ^ 32) :
    (writeBytes m a bs).read x.toNat = bs[(x - a).toNat]?.getD (m.read x.toNat) := by
  induction bs generalizing m a with
  | nil => rfl
  | cons b bs ih =>
    rw [List.length_cons] at hlen
    rw [writeBytes, ih (m.write a.toNat b) (a + 1#32) (Memory.wf_write m _ b a.isLt hm) (by omega),
      Memory.read_write m a.toNat b x.toNat hm]
    by_cases hx : x = a
    · subst hx
      have hlast : (x - (x + 1#32)).toNat = 2 ^ 32 - 1 := by
        rw [show x - (x + 1#32) = -1#32 by ring]
        rfl
      rw [hlast, List.getElem?_eq_none (by omega), sub_self]
      simp
    · have hnext : (x - a).toNat = (x - (a + 1#32)).toNat + 1 := by
        have hne : x.toNat ≠ a.toNat := fun c => hx (BitVec.eq_of_toNat_eq c)
        bv_omega
      rw [hnext, List.getElem?_cons_succ, if_neg fun c => hx (BitVec.eq_of_toNat_eq c)]

/-- The byte at an offset below the length of the bytes placed is the byte placed there. -/
theorem read_writeBytes_at (bs : List Byte) (m : Memory) (a : Word) (j : Nat) (hm : m.wf = true)
    (hlen : bs.length ≤ 2 ^ 32) (hj : j < bs.length) :
    (writeBytes m a bs).read (a + BitVec.ofNat 32 j).toNat = bs[j] := by
  have hoff : (a + BitVec.ofNat 32 j - a).toNat = j := by
    rw [distance_of_offset]
    omega
  rw [read_writeBytes bs m a _ hm hlen, hoff, List.getElem?_eq_getElem hj, Option.getD_some]

/-- A word placed in canonical memory is fetched byte by byte. -/
theorem fetchBytes_placeWord (s : State) (k : InstrSet) (w : BitVec 32) (hm : s.mem.wf = true) :
    fetchBytes (placeWord s k w) = bytesOfWord k w := by
  have hlen : (bytesOfWord k w).length = 4 := by cases k <;> rfl
  have hread := fun j hj => read_writeBytes_at (bytesOfWord k w) s.mem (alignedPc k s.pc) j hm (by omega) hj
  refine List.ext_getElem (by rw [hlen]; rfl) fun j hj hj' => ?_
  rw [← hread j hj']
  obtain rfl | rfl | rfl | rfl : j = 0 ∨ j = 1 ∨ j = 2 ∨ j = 3 := by omega
  · rw [show BitVec.ofNat 32 0 = 0#32 from rfl, BitVec.add_zero]
    rfl
  all_goals rfl

/-- A placed word lies at an aligned `pc`. -/
theorem pcAligned_placeWord (s : State) (k : InstrSet) (w : BitVec 32) : pcAligned (placeWord s k w) = true := by
  cases k with
  | a32 =>
    change ((s.pc &&& 0xFFFFFFFC#32).extractLsb' 0 2 == 0#2) = true
    rw [BitVec.extractLsb'_and, show (0xFFFFFFFC#32 : BitVec 32).extractLsb' 0 2 = 0#2 from rfl, BitVec.and_zero]
    rfl
  | t32 =>
    change ((s.pc &&& 0xFFFFFFFE#32).extractLsb' 0 1 == 0#1) = true
    rw [BitVec.extractLsb'_and, show (0xFFFFFFFE#32 : BitVec 32).extractLsb' 0 1 = 0#1 from rfl, BitVec.and_zero]
    rfl

/-- Settles O14: the placed word lies at an aligned `pc` and is fetched as the bytes that the table word was read from. -/
theorem placedWordIsRunByTheNextStep : Obligations.PlacedWordIsRunByTheNextStep := by
  unfold Obligations.PlacedWordIsRunByTheNextStep
  intro s nbits w i hm h
  refine step_of_decode _ i (pcAligned_placeWord ..) ?_
  unfold State.withFetchWord
  rw [fetchBytes_placeWord s _ _ hm]
  change decode (tableIset (tableWord nbits w)) _ = _
  unfold decodeTableWord at h
  split at h
  · next i' hdec => cases h; exact hdec
  · cases h

end Sys2Proof.Machine

/-! SUPPORT. The condition and the decode checks (O15, O16, O18, O20 to O22): what an instruction answers by its condition,
and a VLDM whose condition passes by the checks of 40_vldm.md R85 to R87. -/

namespace Sys2Proof.Machine

/-! ### The condition -/

/-- Every row but those of FLDM*X is a body under its condition. -/
theorem exec_conditional (i : Instr) (s : State) (h : i.redirect ≠ some .fldmx) :
    ∃ body, exec i s = conditional i.iset i.condSource s body := by
  rcases row_kinds i with ⟨t, ht⟩ | hundef | ⟨o, ho, hne⟩ | hfldmx
  · exact ⟨_, exec_vldm i t s ht⟩
  · exact ⟨_, exec_undefined i s hundef⟩
  · exact ⟨_, exec_see i o s ho hne⟩
  · exact absurd hfldmx h

/-- A conditional instruction whose condition fails ends at once. -/
theorem conditional_of_failed (k : InstrSet) (src : CondSource) (s : State) (body : Result)
    (h : condOk src s = some false) : conditional k src s body = .next (retire k s) := by
  rw [conditional, h]

/-- Settles O16: a failed condition ends the instruction, whatever its body. -/
theorem failedConditionOnlyAdvancesPc : Obligations.FailedConditionOnlyAdvancesPc := by
  unfold Obligations.FailedConditionOnlyAdvancesPc
  intro i s hne hcond
  obtain ⟨body, hbody⟩ := exec_conditional i s hne
  rw [hbody, conditional_of_failed _ _ _ _ hcond, retire_eq]

/-- Settles O15: the table over the four flags, and the three sources of a condition. -/
theorem conditionTable : Obligations.ConditionTable := by
  unfold Obligations.ConditionTable
  refine ⟨by decide, fun s c => rfl, fun s c rest h => ?_, fun s h => ?_⟩
  · simp only [condOk, condOf, itCond, h, List.head?_cons, Option.getD_some]
  · simp only [condOk, condOf, itCond, h, List.head?_nil, Option.getD_none]
    rfl

/-- Settles O18: under a passed condition a redirect row is its refusal. -/
theorem seeRowsAreRefusedByName : Obligations.SeeRowsAreRefusedByName := by
  unfold Obligations.SeeRowsAreRefusedByName
  intro i s o ho hne hcond
  rw [exec_see i o s ho hne, conditional_of_passed _ _ _ _ hcond]

/-- Under a passed condition a VLDM row is the shared operation. -/
theorem exec_passed (i : Instr) (t : Transfer) (s : State) (ht : i.transfer = some t)
    (hcond : condOk i.condSource s = some true) : exec i s = vldm i.iset t s := by
  rw [exec_vldm i t s ht, conditional_of_passed _ _ _ _ hcond]

/-! ### The PC as base -/

/-- The PC check of 40_vldm.md R85. -/
theorem pcBaseBarred_iff (t : Transfer) (s : State) :
    pcBaseBarred t s = true ↔ t.n = 15#4 ∧ (t.wback = true ∨ s.iset ≠ .a32) := by
  simp [pcBaseBarred]

/-- Settles O20: the PC check comes first, and a read of `R[15]` adds 8. -/
theorem pcBaseIsRefusedOrReadsAhead : Obligations.PcBaseIsRefusedOrReadsAhead := by
  unfold Obligations.PcBaseIsRefusedOrReadsAhead
  refine ⟨fun i t s ht hcond hn hbar => ?_, fun t s hn hadd => ?_⟩
  · rw [exec_passed i t s ht hcond, vldm, if_pos ((pcBaseBarred_iff t s).2 ⟨hn, hbar⟩)]
  · rw [baseAddr, if_pos hadd, readReg, if_pos hn, pcReadOffset]

/-! ### The empty list -/

/-- A VLDM of an empty list whose base is not barred behaves as `CU_REGS0` says. -/
theorem exec_emptyList (i : Instr) (t : Transfer) (s : State) (ht : i.transfer = some t)
    (hcond : condOk i.condSource s = some true) (hn : ¬ (t.n = 15#4 ∧ (t.wback = true ∨ s.iset ≠ .a32)))
    (h0 : t.regs = 0) : exec i s = emptyList i.iset t s := by
  rw [exec_passed i t s ht hcond, vldm, if_neg (mt (pcBaseBarred_iff t s).1 hn), if_pos h0]

/-- A register written with the value it holds changes nothing. -/
theorem writeReg_readReg (s : State) (n : BitVec 4) (hn : n ≠ 15#4) : writeReg s n (readReg s n) = s := by
  have hlt := toNat_lt_of_ne_pc n hn
  have hregs : s.regs.setIfInBounds n.toNat (readReg s n) = s.regs := by
    ext j hj
    by_cases h : n.toNat = j
    · subst h
      simp [readReg, hn, hlt]
    · simp [h]
  rw [writeReg, hregs]

/-- The transfer of an empty list only ends the instruction: no word is read, and the base is written with its own
value. -/
theorem runTransfer_empty (k : InstrSet) (t : Transfer) (s : State) (h0 : t.regs = 0) (himm : t.imm32 = 0#32)
    (hn : ¬ (t.n = 15#4 ∧ t.wback = true)) : runTransfer k t s = .next (retire k s) := by
  have hcross : ¬ (rangeCrosses t s = true) := by
    rw [rangeCrosses_iff, himm]
    have := (baseAddr t s).isLt
    simp only [BitVec.toNat_ofNat]
    omega
  have hload : loadList t s = .ok s := by
    unfold loadList
    rw [h0]
    split <;> rfl
  have hback : backValue t s = readReg s t.n := by
    unfold backValue
    rw [himm]
    split <;> simp
  have hwrite : writeBack t s s = s := by
    unfold writeBack
    rw [hback]
    split
    · next hw => exact writeReg_readReg s t.n fun c => hn ⟨c, hw⟩
    · rfl
  rw [runTransfer, if_neg hcross, hload]
  simp only [hwrite]

/-- Settles O21: the behaviour that `CU_REGS0` selects; under `LoadNone` the enable check and then an empty transfer. -/
theorem emptyListFollowsCuRegs0 : Obligations.EmptyListFollowsCuRegs0 := by
  unfold Obligations.EmptyListFollowsCuRegs0
  intro i t s ht hcond hn h0
  have himm : t.imm32 = 0#32 := by
    obtain ⟨himm, -, -⟩ := transfer_values i t ht
    exact BitVec.eq_of_toNat_eq (by rw [himm, h0, Nat.mul_zero]; rfl)
  have hrun := runTransfer_empty i.iset t s h0 himm fun ⟨h15, hw⟩ => hn ⟨h15, .inl hw⟩
  rw [exec_emptyList i t s ht hcond hn h0, ← retire_eq]
  refine ⟨fun h => ?_, fun h => ?_, fun h hf => ?_, fun h hf => ?_, fun h hf => ?_, fun h => ?_⟩ <;> rw [emptyList, h]
  · rfl
  · simp only [checkedTransfer, hf, hrun]
  · simp only [checkedTransfer, hf, raise]
  · simp only [checkedTransfer, hf, raise]

/-! ### The list that is too long -/

/-- A VLDM of a list too long whose base is not barred behaves as `CU_RANGE` says. -/
theorem exec_longList (i : Instr) (t : Transfer) (s : State) (ht : i.transfer = some t)
    (hcond : condOk i.condSource s = some true) (hn : ¬ (t.n = 15#4 ∧ (t.wback = true ∨ s.iset ≠ .a32)))
    (hlong : (t.singleRegs = false ∧ 16 < t.regs) ∨ 32 < t.d + t.regs) : exec i s = longList i.iset t s := by
  obtain ⟨-, hd, -⟩ := transfer_values i t ht
  have h0 : t.regs ≠ 0 := by omega
  have hl : listTooLong t = true := by simpa [listTooLong] using hlong
  rw [exec_passed i t s ht hcond, vldm, if_neg (mt (pcBaseBarred_iff t s).1 hn), if_neg h0, if_pos hl]

/-- Drawing every `D` register makes 32 draws, one for each register, and changes nothing else. -/
theorem drawAllD_eq (s : State) : ∃ dregs, drawAllD s = { s with dregs := dregs, draws := s.draws + 32 } ∧
    ∀ r < 32, dregs[r]?.getD 0#64 = Config.draw64 (s.draws + r) := by
  obtain ⟨hdraw, -, hdraws⟩ := drawListD_spec 32 0 s (by decide)
  refine ⟨(drawAllD s).dregs, ?_, fun r hr => ?_⟩
  · rw [← hdraws]
    exact drawListD_frame 32 0 s
  · rw [← hdraw r hr, Nat.zero_add]
    rfl

/-- What `CU_RANGE = Unknown` leaves where it does not abort (40_vldm.md R87): every `D` register a draw, the base the next
draw if there is writeback, all else but `pc` and the counter kept. -/
theorem unknownRange_next (k : InstrSet) (t : Transfer) (s u : State) (hn : ¬ (t.n = 15#4 ∧ t.wback = true))
    (hu : u = retire k (if t.wback then drawReg (drawAllD s) t.n else drawAllD s)) :
    (∀ r < 32, readD u r = Config.draw64 (s.draws + r)) ∧
    WrittenBack s u t.n (t.wback = true) (Config.draw32 (s.draws + 32)) ∧
    OthersKept { s with draws := s.draws + if t.wback then 33 else 32 } u ∧ u.pc = s.pc + 4#32 ∧
    u.itConds = if k = .t32 then s.itConds.tail else s.itConds := by
  obtain ⟨dregs, hall, hdraw⟩ := drawAllD_eq s
  rw [hall, retire_eq] at hu
  cases hw : t.wback with
  | false =>
    rw [hw] at hu
    subst hu
    exact ⟨hdraw, ⟨nofun, fun i h15 _ => readReg_congr _ _ i h15 rfl⟩, rfl, rfl, rfl⟩
  | true =>
    have h15 : t.n ≠ 15#4 := fun c => hn ⟨c, hw⟩
    rw [hw] at hu
    have hregs : u.regs = (writeReg s t.n (Config.draw32 (s.draws + 32))).regs := by rw [hu]; rfl
    refine ⟨fun r hr => ?_, ⟨fun _ => ?_, fun i hi15 hi => ?_⟩, ?_⟩
    · rw [hu]
      exact hdraw r hr
    · rw [readReg_congr _ u t.n h15 hregs, readReg_writeReg s _ _ _ h15, if_pos rfl]
    · rw [readReg_congr _ u i hi15 hregs, readReg_writeReg s _ _ _ h15, if_neg fun c => hi ⟨rfl, c⟩]
    · subst hu
      exact ⟨rfl, rfl, rfl⟩

/-- Settles O22: the behaviour that `CU_RANGE` selects; under `Unknown` the abort of a failing read or the draws. -/
theorem longListFollowsCuRange : Obligations.LongListFollowsCuRange := by
  unfold Obligations.LongListFollowsCuRange
  intro i t s ht hcond hn hlong
  rw [exec_longList i t s ht hcond hn hlong, ← retire_eq]
  refine ⟨fun h => ?_, fun h => ?_, fun h => ?_, fun h => ?_⟩
  · rw [longList, h]
    rfl
  · rw [longList, h]
  · have hrun : longList i.iset t s = unknownRange i.iset t s := by rw [longList, h]
    rw [hrun]
    rcases unknownRange_cases i.iset t s with ⟨-, hnext⟩ | ⟨e, he, hfault⟩
    · exact .inr ⟨_, hnext, unknownRange_next i.iset t s _ (fun ⟨h15, hw⟩ => hn ⟨h15, .inl hw⟩) rfl⟩
    · obtain ⟨hf, hread⟩ := rangeAbort_some s e he
      exact .inl ⟨_, _, _, hfault, hf, hread⟩
  · rw [longList, h]

end Sys2Proof.Machine

/-! SUPPORT. The transfer (O23 to O36): the enable check and the range test before it, the aborts of its reads, and what it
loads where every read is allowed (40_vldm.md R74, 60_exceptions.md R96 to R99). -/

namespace Sys2Proof.Machine

/-! ### Before the transfer -/

/-- Settles O23: past the decode checks the enable check decides. -/
theorem enableCheckDecidesBeforeTheBase : Obligations.EnableCheckDecidesBeforeTheBase := by
  unfold Obligations.EnableCheckDecidesBeforeTheBase
  intro i t s ht hchecks
  rw [exec_checked i t s ht hchecks]
  exact ⟨fun hf => by rw [checkedTransfer, hf]; rfl, fun hf => by rw [checkedTransfer, hf]; rfl⟩

/-- Settles O24: both clauses are the range test. -/
theorem rangeAcrossTopIsRefused : Obligations.RangeAcrossTopIsRefused := by
  unfold Obligations.RangeAcrossTopIsRefused
  intro i t s ht hchecks hf
  rw [exec_enabled i t s ht hchecks hf]
  refine ⟨fun htop => ?_, fun hadd hbottom => ?_⟩
  · rw [runTransfer, if_pos ((rangeCrosses_iff t s).2 (.inl htop))]
  · rw [runTransfer, if_pos ((rangeCrosses_iff t s).2 (.inr ⟨hadd, hbottom⟩))]

/-! ### A read that fails -/

/-- The number of words that a list reads. -/
def wordCount (t : Transfer) : Nat := (if t.singleRegs then 1 else 2) * t.regs

/-- The words of a list span its `imm32`. -/
theorem wordCount_eq (i : Instr) (t : Transfer) (ht : i.transfer = some t) :
    t.imm32.toNat = 4 * wordCount t ∧ t.imm32.toNat / 4 = wordCount t := by
  obtain ⟨himm, -, -⟩ := transfer_values i t ht
  rw [himm, wordCount]
  split <;> omega

/-- A list stops at the first of its words whose read fails. -/
theorem loadList_error (t : Transfer) (s : State) (j : Nat) (e : Abort) (hj : j < wordCount t)
    (hok : ∀ r < j, ∃ v, memRead s (baseAddr t s + BitVec.ofNat 32 (4 * r)) = .ok v)
    (he : memRead s (baseAddr t s + BitVec.ofNat 32 (4 * j)) = .error e) : loadList t s = .error e := by
  unfold wordCount at hj
  unfold loadList
  split at hj
  · next hs => rw [if_pos hs]; exact loadListS_error _ _ _ s j e (by omega) hok he
  · next hs => rw [if_neg hs]; exact loadListD_error _ _ _ s j e hj hok he

/-- A transfer inside the address space whose list stops at a failing read raises the abort of that read. -/
theorem runTransfer_abort (k : InstrSet) (t : Transfer) (s : State) (e : Abort) (hcross : ¬ rangeCrosses t s = true)
    (hload : loadList t s = .error e) :
    runTransfer k t s = .fault (.dataAbort e.kind e.addr (abortState e t s)) := by
  rw [runTransfer, if_neg hcross, hload]
  rfl

/-- The first address is aligned exactly when the base is: `imm32` is a multiple of 4. -/
theorem wordAligned_baseAddr (i : Instr) (t : Transfer) (s : State) (ht : i.transfer = some t) :
    wordAligned (baseAddr t s) = wordAligned (readReg s t.n) := by
  unfold baseAddr
  split
  · rfl
  · have himm : t.imm32 = BitVec.ofNat 32 (4 * wordCount t) := by
      rw [← (wordCount_eq i t ht).1, BitVec.ofNat_toNat, BitVec.setWidth_eq]
    have hback := wordAligned_add (readReg s t.n - t.imm32) (wordCount t)
    rw [← himm, BitVec.sub_add_cancel] at hback
    exact hback.symm

/-- Settles O26: the first read fails for its alignment, and such an abort leaves the state. -/
theorem misalignedBaseAborts : Obligations.MisalignedBaseAborts := by
  unfold Obligations.MisalignedBaseAborts
  intro i t s ht hchecks hf htop hmis
  obtain ⟨-, -, hregs, -, -⟩ := id hchecks
  have hR : wordAligned (readReg s t.n) = false := by simpa [wordAligned] using hmis
  have hbase : wordAligned (baseAddr t s) = false := (wordAligned_baseAddr i t s ht).trans hR
  have hcross : ¬ rangeCrosses t s = true := by
    have hne : (readReg s t.n).toNat ≠ 0 := fun h0 => by
      have : wordAligned (readReg s t.n) = true := (wordAligned_iff _).2 (by rw [h0])
      exact absurd (hR.symm.trans this) (by decide)
    rw [rangeCrosses_iff, not_or]
    refine ⟨by omega, fun ⟨hadd, hbottom⟩ => ?_⟩
    rw [baseAddr, hadd] at htop
    simp only [Bool.false_eq_true, if_false, BitVec.toNat_sub] at htop
    omega
  have hread : memRead s (baseAddr t s) = .error ⟨.alignment, baseAddr t s⟩ := by simp [memRead, hbase]
  have hwords : 0 < wordCount t := by
    unfold wordCount
    split <;> omega
  have hload := loadList_error t s 0 _ hwords (fun r hr => absurd hr (Nat.not_lt_zero r)) (by simpa using hread)
  rw [exec_enabled i t s ht hchecks hf, runTransfer_abort i.iset t s _ hcross hload]
  rfl

/-- Every register of a list drawn, the others kept (40_vldm.md R91). -/
theorem drawList_spec (t : Transfer) (s : State) (hd : t.d + t.regs ≤ 32) :
    drawList t s = { s with dregs := (drawList t s).dregs, draws := (drawList t s).draws } ∧
    (t.singleRegs = false →
      (∀ r < t.regs, readD (drawList t s) (t.d + r) = Config.draw64 (s.draws + r)) ∧
      ∀ r < 32, (r < t.d ∨ t.d + t.regs ≤ r) → readD (drawList t s) r = readD s r) ∧
    (t.singleRegs = true →
      (∀ r < t.regs, readS (drawList t s) (t.d + r) = Config.draw32 (s.draws + r)) ∧
      (∀ r < 32, (r < t.d ∨ t.d + t.regs ≤ r) → readS (drawList t s) r = readS s r) ∧
      ∀ r < 32, 16 ≤ r → readD (drawList t s) r = readD s r) := by
  unfold drawList
  cases hs : t.singleRegs with
  | false =>
    obtain ⟨hdraw, hkeep, -⟩ := drawListD_spec t.regs t.d s hd
    exact ⟨drawListD_frame _ _ s, fun _ => ⟨hdraw, fun r _ hr => hkeep r hr⟩, nofun⟩
  | true =>
    obtain ⟨hdraw, hkeepS, hkeepD, -⟩ := drawListS_spec t.regs t.d s hd
    exact ⟨drawListS_frame _ _ s, nofun,
      fun _ => ⟨hdraw, fun r _ hr => hkeepS r hr, fun r _ hr => hkeepD r hr⟩⟩

/-- Settles O27: the reads below the word succeed, its own fails for its admission, and the list is drawn. -/
theorem rejectedWordAborts : Obligations.RejectedWordAborts := by
  unfold Obligations.RejectedWordAborts
  intro i t s j ht hchecks hf htop hbottom hbase hj hadmitted hrejected
  obtain ⟨-, -, -, -, hd⟩ := id hchecks
  have hcross : ¬ rangeCrosses t s = true := by
    rw [rangeCrosses_iff, not_or]
    exact ⟨by omega, fun ⟨hadd, hlow⟩ => by have := hbottom hadd; omega⟩
  rw [(wordCount_eq i t ht).2] at hj
  have hload := loadList_error t s j _ hj
    (fun r hr => ⟨_, memRead_ok s _ ((wordAligned_add _ r).trans hbase) (hadmitted r hr)⟩)
    (memRead_other s _ ((wordAligned_add _ j).trans hbase) hrejected)
  refine ⟨drawList t s, ?_, drawList_spec t s hd⟩
  rw [exec_enabled i t s ht hchecks hf, runTransfer_abort i.iset t s _ hcross hload]
  rfl

/-! ### The list loaded whole -/

/-- A VLDM that passes its checks, with access enabled and every read allowed, completes and loads its list. -/
theorem exec_loads (i : Instr) (t : Transfer) (s : State) (ht : i.transfer = some t) (hchecks : ChecksPass i t s)
    (hf : FpEnabled s) (hbottom : t.add = false → t.imm32.toNat ≤ (readReg s t.n).toNat)
    (hreads : ReadsAllowed s (baseAddr t s) (wordCount t)) :
    ∃ u, exec i s = .next u ∧
      (t.singleRegs = false → LoadedD s u t.d t.regs (baseAddr t s)) ∧
      (t.singleRegs = true → LoadedS s u t.d t.regs (baseAddr t s)) ∧
      WrittenBack s u t.n (t.wback = true) (backValue t s) ∧ u.pc = s.pc + 4#32 ∧
      u.itConds = (if i.iset = .t32 then s.itConds.tail else s.itConds) ∧ OthersKept s u := by
  obtain ⟨-, hpc, -, -, hd⟩ := id hchecks
  obtain ⟨himm, -, -⟩ := transfer_values i t ht
  rw [exec_enabled i t s ht hchecks hf]
  exact runTransfer_ok i.iset t s hd (fun ⟨h15, hw⟩ => hpc ⟨h15, .inl hw⟩) himm hreads hbottom

/-- Settles O25: the load of the list, with the base wrapped. -/
theorem rangeUpToTopWrapsTheBase : Obligations.RangeUpToTopWrapsTheBase := by
  unfold Obligations.RangeUpToTopWrapsTheBase
  intro i t s ht hchecks hf hadd hwb htop hreads
  have hbase : baseAddr t s = readReg s t.n := by rw [baseAddr, if_pos hadd]
  rw [(wordCount_eq i t ht).2] at hreads
  rw [← hbase] at hreads ⊢
  obtain ⟨u, hexec, hD, hS, ⟨hback, -⟩, -⟩ := exec_loads i t s ht hchecks hf (by simp [hadd]) hreads
  refine ⟨u, hexec, hD, hS, ?_⟩
  rw [hback hwb, backValue, if_pos hadd]
  apply BitVec.eq_of_toNat_eq
  rw [BitVec.toNat_add, htop]
  rfl

/-! ### The eight encodings -/

section Encodings

variable (i : Instr) (add wb : Bool) (d : BitVec 1) (rn vd : BitVec 4) (s : State) (base : Word)

/-- The load of a `D` list, by the fields of its word (40_vldm.md R77, R78, R81, R82). -/
theorem exec_loads_double (m : BitVec 7) (ht : i.transfer = some (transferD add wb d rn vd m))
    (hbase : base = if add then readReg s rn else readReg s rn - BitVec.ofNat 32 (8 * m.toNat))
    (hcond : condOk i.condSource s = some true) (hpc : ¬ (rn = 15#4 ∧ (wb = true ∨ s.iset ≠ .a32)))
    (h1 : 1 ≤ m.toNat) (h16 : m.toNat ≤ 16) (hd : 16 * d.toNat + vd.toNat + m.toNat ≤ 32) (hf : FpEnabled s)
    (hbottom : add = false → 8 * m.toNat ≤ (readReg s rn).toNat) (hreads : ReadsAllowed s base (2 * m.toNat)) :
    ∃ t, exec i s = .next t ∧ LoadedD s t (16 * d.toNat + vd.toNat) m.toNat base ∧
      WrittenBack s t rn (wb = true) (if add then base + BitVec.ofNat 32 (8 * m.toNat) else base) ∧
      t.pc = s.pc + 4#32 ∧ t.itConds = (if i.iset = .t32 then s.itConds.tail else s.itConds) ∧ OthersKept s t := by
  obtain ⟨hD, hregs, himm⟩ := transferD_values add wb d rn vd m
  generalize htr : transferD add wb d rn vd m = x at ht hD hregs himm
  have hx : x.add = add ∧ x.wback = wb ∧ x.n = rn ∧ x.singleRegs = false := by subst htr; exact ⟨rfl, rfl, rfl, rfl⟩
  obtain ⟨rfl, rfl, rfl, hsingle⟩ := hx
  have hfirst : baseAddr x s = base := by rw [hbase, ← himm]; rfl
  have hback : backValue x s = if x.add then base + BitVec.ofNat 32 (8 * m.toNat) else base := by
    rw [hbase, ← himm, backValue]
    split <;> rfl
  have hcount : wordCount x = 2 * m.toNat := by rw [wordCount, hsingle, hregs]; rfl
  rw [← hcount, ← hfirst] at hreads
  rw [← hD, ← hback, ← hfirst, ← hregs]
  rw [← hD] at hd
  obtain ⟨u, hexec, hload, -, hrest⟩ := exec_loads i x s ht ⟨hcond, hpc, by omega, by omega, by omega⟩ hf
    (fun h => by rw [(wordCount_eq i x ht).1]; have := hbottom h; omega) hreads
  exact ⟨u, hexec, hload hsingle, hrest⟩

/-- The load of an `S` list, by the fields of its word (40_vldm.md R79, R80, R83, R84). -/
theorem exec_loads_single (m : BitVec 8) (ht : i.transfer = some (transferS add wb d rn vd m))
    (hbase : base = if add then readReg s rn else readReg s rn - BitVec.ofNat 32 (4 * m.toNat))
    (hcond : condOk i.condSource s = some true) (hpc : ¬ (rn = 15#4 ∧ (wb = true ∨ s.iset ≠ .a32)))
    (h1 : 1 ≤ m.toNat) (hd : 2 * vd.toNat + d.toNat + m.toNat ≤ 32) (hf : FpEnabled s)
    (hbottom : add = false → 4 * m.toNat ≤ (readReg s rn).toNat) (hreads : ReadsAllowed s base m.toNat) :
    ∃ t, exec i s = .next t ∧ LoadedS s t (2 * vd.toNat + d.toNat) m.toNat base ∧
      WrittenBack s t rn (wb = true) (if add then base + BitVec.ofNat 32 (4 * m.toNat) else base) ∧
      t.pc = s.pc + 4#32 ∧ t.itConds = (if i.iset = .t32 then s.itConds.tail else s.itConds) ∧ OthersKept s t := by
  obtain ⟨hS, hregs, himm⟩ := transferS_values add wb d rn vd m
  generalize htr : transferS add wb d rn vd m = x at ht hS hregs himm
  have hx : x.add = add ∧ x.wback = wb ∧ x.n = rn ∧ x.singleRegs = true := by subst htr; exact ⟨rfl, rfl, rfl, rfl⟩
  obtain ⟨rfl, rfl, rfl, hsingle⟩ := hx
  have hfirst : baseAddr x s = base := by rw [hbase, ← himm]; rfl
  have hback : backValue x s = if x.add then base + BitVec.ofNat 32 (4 * m.toNat) else base := by
    rw [hbase, ← himm, backValue]
    split <;> rfl
  have hcount : wordCount x = m.toNat := by rw [wordCount, hsingle, hregs]; exact Nat.one_mul _
  rw [← hcount, ← hfirst] at hreads
  rw [← hS, ← hback, ← hfirst, ← hregs]
  rw [← hS] at hd
  obtain ⟨u, hexec, -, hload, hrest⟩ := exec_loads i x s ht
    ⟨hcond, hpc, by omega, fun h => absurd (hsingle.symm.trans h) (by decide), by omega⟩ hf
    (fun h => by rw [(wordCount_eq i x ht).1]; have := hbottom h; omega) hreads
  exact ⟨u, hexec, hload hsingle, hrest⟩

end Encodings

/-- Settles O28: the load of a `D` list, increment mode, A32. -/
theorem vldmA1LoadsItsList : Obligations.VldmA1LoadsItsList := by
  unfold Obligations.VldmA1LoadsItsList
  intro cond d w rn vd imm7 s hcond hpc h1 h16 hd hf hreads
  have h := exec_loads_double (.vldmA1 cond d w rn vd imm7) true (w == 1#1) d rn vd s (readReg s rn) imm7 rfl rfl hcond
    (by simpa using hpc) h1 h16 hd hf nofun hreads
  simpa [Instr.iset] using h

/-- Settles O29: the load of a `D` list, decrement mode, A32. -/
theorem vldmdbA1LoadsItsList : Obligations.VldmdbA1LoadsItsList := by
  unfold Obligations.VldmdbA1LoadsItsList
  intro cond d rn vd imm7 s base hcond hpc h1 h16 hd hf hbottom hreads
  have h := exec_loads_double (.vldmdbA1 cond d rn vd imm7) false true d rn vd s base imm7 rfl rfl hcond
    (fun h => hpc h.1) h1 h16 hd hf (fun _ => hbottom) hreads
  simpa [Instr.iset] using h

/-- Settles O30: the load of an `S` list, increment mode, A32. -/
theorem vldmA2LoadsItsList : Obligations.VldmA2LoadsItsList := by
  unfold Obligations.VldmA2LoadsItsList
  intro cond d w rn vd imm8 s hcond hpc h1 hd hf hreads
  have h := exec_loads_single (.vldmA2 cond d w rn vd imm8) true (w == 1#1) d rn vd s (readReg s rn) imm8 rfl rfl hcond
    (by simpa using hpc) h1 hd hf nofun hreads
  simpa [Instr.iset] using h

/-- Settles O31: the load of an `S` list, decrement mode, A32. -/
theorem vldmdbA2LoadsItsList : Obligations.VldmdbA2LoadsItsList := by
  unfold Obligations.VldmdbA2LoadsItsList
  intro cond d rn vd imm8 s base hcond hpc h1 hd hf hbottom hreads
  have h := exec_loads_single (.vldmdbA2 cond d rn vd imm8) false true d rn vd s base imm8 rfl rfl hcond
    (fun h => hpc h.1) h1 hd hf (fun _ => hbottom) hreads
  simpa [Instr.iset] using h

/-- Settles O32: the load of a `D` list, increment mode, T32. -/
theorem vldmT1LoadsItsList : Obligations.VldmT1LoadsItsList := by
  unfold Obligations.VldmT1LoadsItsList
  intro d w rn vd imm7 s hcond hpc h1 h16 hd hf hreads
  have h := exec_loads_double (.vldmT1 d w rn vd imm7) true (w == 1#1) d rn vd s (readReg s rn) imm7 rfl rfl hcond
    (fun h => hpc h.1) h1 h16 hd hf nofun hreads
  simpa [Instr.iset] using h

/-- Settles O33: the load of a `D` list, decrement mode, T32. -/
theorem vldmdbT1LoadsItsList : Obligations.VldmdbT1LoadsItsList := by
  unfold Obligations.VldmdbT1LoadsItsList
  intro d rn vd imm7 s base hcond hpc h1 h16 hd hf hbottom hreads
  have h := exec_loads_double (.vldmdbT1 d rn vd imm7) false true d rn vd s base imm7 rfl rfl hcond
    (fun h => hpc h.1) h1 h16 hd hf (fun _ => hbottom) hreads
  simpa [Instr.iset] using h

/-- Settles O34: the load of an `S` list, increment mode, T32. -/
theorem vldmT2LoadsItsList : Obligations.VldmT2LoadsItsList := by
  unfold Obligations.VldmT2LoadsItsList
  intro d w rn vd imm8 s hcond hpc h1 hd hf hreads
  have h := exec_loads_single (.vldmT2 d w rn vd imm8) true (w == 1#1) d rn vd s (readReg s rn) imm8 rfl rfl hcond
    (fun h => hpc h.1) h1 hd hf nofun hreads
  simpa [Instr.iset] using h

/-- Settles O35: the load of an `S` list, decrement mode, T32. -/
theorem vldmdbT2LoadsItsList : Obligations.VldmdbT2LoadsItsList := by
  unfold Obligations.VldmdbT2LoadsItsList
  intro d rn vd imm8 s base hcond hpc h1 hd hf hbottom hreads
  have h := exec_loads_single (.vldmdbT2 d rn vd imm8) false true d rn vd s base imm8 rfl rfl hcond
    (fun h => hpc h.1) h1 hd hf (fun _ => hbottom) hreads
  simpa [Instr.iset] using h

/-- Settles O36: a word that reads as VPOP is an Increment After with writeback from `R[13]`, and loads as every VLDM does. -/
theorem vpopIsTheLoadOfItsClass : Obligations.VpopIsTheLoadOfItsClass := by
  unfold Obligations.VpopIsTheLoadOfItsClass
  intro k w s hfits hp hu hw hn
  obtain ⟨i, hi, hrow⟩ := decodeWord_of_fitsDiagram k w hfits
  obtain ⟨rfl, -, -⟩ := (decodeWord_eq_ok_iff k w i).1 hi
  rw [hp, hu, hw] at hrow
  have ht : i.transfer = some (blockOf w true true) := by
    cases hrow with
    | incrementAfter hvldm => exact hvldm
  have hbase : baseAddr (blockOf w true true) s = readReg s 13#4 := by
    rw [baseAddr, blockOf_add, if_pos rfl, blockOf_n, hn]
  refine ⟨i, _, hi, ht, hbase, fun hchecks hf hreads => ?_⟩
  rw [(wordCount_eq i _ ht).2, ← hbase] at hreads
  have h := exec_loads i _ s ht hchecks hf (by simp) hreads
  simpa [hbase, backValue, hn] using h

end Sys2Proof.Machine

/-! SUPPORT. The registers and the read primitive (O37 to O39): the `S` view of the `D` registers (10_state.md R27), and
what `MemRead` checks and assembles (20_memory.md R34 to R38). -/

namespace Sys2Proof.Machine

/-! ### The two views of the SIMD&FP registers -/

/-- An even `S` register is the low half of its `D` register, the next the high half. -/
theorem readS_pair (s : State) (i : Nat) :
    readS s (2 * i) = (readD s i).extractLsb' 0 32 ∧ readS s (2 * i + 1) = (readD s i).extractLsb' 32 32 := by
  unfold readS
  rw [if_pos (by omega), if_neg (by omega), show 2 * i / 2 = i by omega, show (2 * i + 1) / 2 = i by omega]
  exact ⟨rfl, rfl⟩

/-- A write of an `S` register leaves every `D` register but its own. -/
theorem readD_writeS_ne (s : State) (j : Nat) (v : Word) (i : Nat) (h : i ≠ j / 2) :
    readD (writeS s j v) i = readD s i := by
  rw [writeS, readD_writeD, if_neg fun c => h c.1.symm]

/-- A write of an `S` register replaces its half of the `D` register and keeps the other. -/
theorem readD_writeS_halves (s : State) (j : Nat) (v : Word) (hj : j < 32) :
    (readD (writeS s j v) (j / 2)).extractLsb' (32 * (j % 2)) 32 = v ∧
    (readD (writeS s j v) (j / 2)).extractLsb' (32 * (1 - j % 2)) 32 =
      (readD s (j / 2)).extractLsb' (32 * (1 - j % 2)) 32 := by
  rw [writeS, readD_writeD, if_pos ⟨rfl, by omega⟩]
  rcases Nat.mod_two_eq_zero_or_one j with h | h
  · rw [if_pos h, h]
    exact ⟨lowHalf_append _ _, highHalf_append _ _⟩
  · rw [if_neg (by omega), h]
    exact ⟨highHalf_append _ _, lowHalf_append _ _⟩

/-- Settles O37: the halves of a pair, read after a write of a `D` register and of an `S` register. -/
theorem singleAndDoubleViewsOverlap : Obligations.SingleAndDoubleViewsOverlap := by
  unfold Obligations.SingleAndDoubleViewsOverlap
  refine ⟨fun s i _ => ?_, fun s i v hi => ?_, fun s i v hi j hj => ?_, fun s j v hj => ?_⟩
  · obtain ⟨hlow, hhigh⟩ := readS_pair s i
    exact ⟨hlow.symm, hhigh.symm⟩
  · have hread : readD (writeD s i v) i = v := by rw [readD_writeD, if_pos ⟨rfl, by omega⟩]
    have hpair := readS_pair (writeD s i v) i
    rwa [hread] at hpair
  · have hread : readD (writeD s i v) (j / 2) = readD s (j / 2) := by rw [readD_writeD, if_neg (by omega)]
    rw [readS, readS, hread]
  · obtain ⟨hnew, hkept⟩ := readD_writeS_halves s j v hj
    exact ⟨hnew, hkept, fun i hi => readD_writeS_ne s j v i hi⟩

/-! ### The read primitive -/

/-- Settles O38: the two checks in order, then the bytes in the order of the endianness. -/
theorem memReadChecksThenAssembles : Obligations.MemReadChecksThenAssembles := by
  unfold Obligations.MemReadChecksThenAssembles
  intro s a
  have haligned : a.extractLsb' 0 2 = 0#2 → wordAligned a = true := fun h => by rw [wordAligned, h]; rfl
  refine ⟨fun hmis => ?_, fun h hrej => memRead_other s a (haligned h) hrej, fun h hadm hend => ?_,
    fun h hadm hend => ?_⟩
  · have : wordAligned a = false := by simpa [wordAligned] using hmis
    rw [memRead, if_pos this]
  · rw [memRead_ok s a (haligned h) hadm, wordAt, hend]
    rfl
  · rw [memRead_ok s a (haligned h) hadm, wordAt, hend]
    rfl

/-- A word of four bytes after other bits is those bits and the four bytes in turn. -/
theorem append_bytes (x : Word) (b3 b2 b1 b0 : Byte) : (x ++ (b3 ++ b2 ++ b1 ++ b0) : DWord) = x ++ b3 ++ b2 ++ b1 ++ b0 := by
  have h1 := BitVec.append_assoc (x₁ := x) (x₂ := b3 ++ b2 ++ b1) (x₃ := b0)
  have h2 := BitVec.append_assoc (x₁ := x) (x₂ := b3 ++ b2) (x₃ := b1)
  have h3 := BitVec.append_assoc (x₁ := x) (x₂ := b3) (x₃ := b2)
  rw [BitVec.cast_eq] at h1 h2 h3
  rw [h3, h2, h1]

/-- The second word of a `D` register is made of the bytes 4 to 7 above its first address. -/
theorem wordAt_add_four (s : State) (a : Word) : wordAt s (a + 4#32) =
    assembleWord s.bigEndian (readByte s (a + 4#32)) (readByte s (a + 5#32)) (readByte s (a + 6#32))
      (readByte s (a + 7#32)) := by
  rw [wordAt, BitVec.add_assoc, BitVec.add_assoc, BitVec.add_assoc]
  rfl

/-- Settles O39: the bytes of the two words, in the order of the endianness. -/
theorem doubleRegisterIsTheNumberAtItsAddress : Obligations.DoubleRegisterIsTheNumberAtItsAddress := by
  unfold Obligations.DoubleRegisterIsTheNumberAtItsAddress
  intro s a b
  have hfirst : b 0 = readByte s a := congrArg (readByte s) (BitVec.add_zero a)
  refine ⟨fun hend => ?_, fun hend => ?_⟩ <;> rw [wordAt_add_four, hend, hfirst, wordAt, hend]
  · exact append_bytes ..
  · exact append_bytes ..

end Sys2Proof.Machine

/-! SUPPORT. Two runs (O45, O46): an instruction commutes with another `DIT`, and with another memory that agrees on the
bytes of its list (10_state.md R30, 20_memory.md R39). -/

namespace Sys2Proof.Machine

/-- The draws of a list commute with a change that one draw of each kind commutes with. -/
theorem drawList_map {f : State → State} (hS : ∀ x j, drawS (f x) j = f (drawS x j))
    (hD : ∀ x i, drawD (f x) i = f (drawD x i)) (t : Transfer) (s : State) : drawList t (f s) = f (drawList t s) := by
  unfold drawList
  split
  · exact drawListS_map hS _ _ s
  · exact drawListD_map hD _ _ s

/-- Settles O45: neither a read nor a write of the instruction meets `DIT`. -/
theorem ditChangesNoValue : Obligations.DitChangesNoValue := by
  unfold Obligations.DitChangesNoValue
  intro i s b
  have hmem : ∀ x a, memRead (withDit b x) a = memRead x a := fun x a => memRead_congr _ _ a rfl rfl rfl
  refine exec_map (withDit b) i s (hcond := ?cond) (hretire := ?retire) (hfp := rfl) (hpc := rfl) (hregs0 := rfl)
    (hrange := rfl) (hiset := rfl) (hdraws := rfl) (hread := fun a => readAbort_congr _ _ a rfl)
    (hcross := fun _ _ => rfl) (hload := fun t _ => ?load) (hback := fun t _ x => ?back)
    (hdraw := fun t => drawList_map (f := withDit b) (fun _ _ => rfl) (fun _ _ => rfl) t s)
    (hall := drawListD_map (f := withDit b) (fun _ _ => rfl) 32 0 s) (hreg := fun _ _ _ => rfl)
  case cond => intro src; cases src <;> rfl
  case retire => intro k x; cases k <;> rfl
  case load =>
    unfold loadList
    split
    · exact loadListS_map (f := withDit b) hmem (fun _ _ _ => rfl) _ _ _ s
    · exact loadListD_map (f := withDit b) hmem (fun _ => rfl) (fun _ _ _ => rfl) _ _ _ s
  case back =>
    unfold writeBack
    split <;> rfl

/-! ### Another memory -/

/-- Two memories agree on `count` bytes from an address upward. -/
def AgreeFrom (m n : Memory) (a : Word) (count : Nat) : Prop :=
  ∀ off < count, m.read (a + BitVec.ofNat 32 off).toNat = n.read (a + BitVec.ofNat 32 off).toNat

/-- Memories that agree from an address agree from a later one on what is left. -/
theorem AgreeFrom.later {m n : Memory} {a : Word} {count : Nat} (skip : Nat) (h : AgreeFrom m n a (skip + count)) :
    AgreeFrom m n (a + BitVec.ofNat 32 skip) count := by
  intro off hoff
  rw [word_add_ofNat]
  exact h (skip + off) (by omega)

/-- A read sees the four bytes from its address only. -/
theorem memRead_withMem (s : State) (m : Memory) (a : Word) (h : AgreeFrom m s.mem a 4) :
    memRead (withMem m s) a = memRead s a := by
  have hword : wordAt (withMem m s) a = wordAt s a := by
    have h0 := h 0 (by decide)
    rw [show BitVec.ofNat 32 0 = 0#32 from rfl, BitVec.add_zero] at h0
    have h1 : readByte (withMem m s) (a + 1#32) = readByte s (a + 1#32) := h 1 (by decide)
    have h2 : readByte (withMem m s) (a + 2#32) = readByte s (a + 2#32) := h 2 (by decide)
    have h3 : readByte (withMem m s) (a + 3#32) = readByte s (a + 3#32) := h 3 (by decide)
    rw [wordAt, wordAt, show readByte (withMem m s) a = readByte s a from h0, h1, h2, h3]
    rfl
  rw [memRead, memRead, hword]
  rfl

/-- The loop of an `S` list sees the bytes of its words only. -/
theorem loadListS_withMem (count d : Nat) (a : Word) (s : State) (m : Memory) (h : AgreeFrom m s.mem a (4 * count)) :
    loadListS count d a (withMem m s) = (loadListS count d a s).map (withMem m) := by
  induction count generalizing d a s with
  | zero => rfl
  | succ count ih =>
    simp only [loadListS, memRead_withMem s m a fun off hoff => h off (by omega)]
    cases memRead s a with
    | error e => rfl
    | ok v =>
      rw [Nat.mul_succ, Nat.add_comm] at h
      exact ih (d + 1) (a + 4#32) (writeS s d v) (h.later 4)

/-- The loop of a `D` list sees the bytes of its words only. -/
theorem loadListD_withMem (count d : Nat) (a : Word) (s : State) (m : Memory) (h : AgreeFrom m s.mem a (8 * count)) :
    loadListD count d a (withMem m s) = (loadListD count d a s).map (withMem m) := by
  induction count generalizing d a s with
  | zero => rfl
  | succ count ih =>
    rw [Nat.mul_succ, Nat.add_comm] at h
    have hsecond : AgreeFrom m s.mem (a + 4#32) 4 := AgreeFrom.later 4 fun off hoff => h off (by omega)
    simp only [loadListD, memRead_withMem s m a fun off hoff => h off (by omega), memRead_withMem s m _ hsecond]
    cases memRead s a with
    | error e => rfl
    | ok word1 =>
      cases memRead s (a + 4#32) with
      | error e => rfl
      | ok word2 => exact ih (d + 1) (a + 8#32) (writeD s d (combineWords s.bigEndian word1 word2)) (h.later 8)

/-- Memories that agree at every address less than `count` above the first agree from there. -/
theorem agreeFrom_of_distance (m n : Memory) (a : Word) (count : Nat) (hcount : count ≤ 2 ^ 32)
    (h : ∀ x : Word, (x - a).toNat < count → m.read x.toNat = n.read x.toNat) : AgreeFrom m n a count := by
  intro off hoff
  refine h _ ?_
  rw [distance_of_offset]
  omega

/-- A list sees the bytes from its first address to `imm32` above it only. -/
theorem loadList_withMem (i : Instr) (t : Transfer) (s : State) (m : Memory) (ht : i.transfer = some t)
    (h : AgreeFrom m s.mem (baseAddr t s) t.imm32.toNat) :
    loadList t (withMem m s) = (loadList t s).map (withMem m) := by
  obtain ⟨himm, -, -⟩ := transfer_values i t ht
  have hbase : baseAddr t (withMem m s) = baseAddr t s := rfl
  rw [himm] at h
  unfold loadList
  rw [hbase]
  split at h
  · next hs => rw [if_pos hs, if_pos hs]; exact loadListS_withMem _ _ _ s m h
  · next hs => rw [if_neg hs, if_neg hs]; exact loadListD_withMem _ _ _ s m h

/-- Settles O46: the loop alone reads memory, and it sees the bytes of the list. -/
theorem onlyTheListedBytesAreRead : Obligations.OnlyTheListedBytesAreRead := by
  unfold Obligations.OnlyTheListedBytesAreRead
  intro i s m hagree
  refine exec_map (withMem m) i s (hcond := ?cond) (hretire := ?retire) (hfp := rfl) (hpc := rfl) (hregs0 := rfl)
    (hrange := rfl) (hiset := rfl) (hdraws := rfl) (hread := fun a => readAbort_congr _ _ a rfl)
    (hcross := fun _ _ => rfl) (hload := fun t ht => ?load) (hback := fun t _ x => ?back)
    (hdraw := fun t => drawList_map (f := withMem m) (fun _ _ => rfl) (fun _ _ => rfl) t s)
    (hall := drawListD_map (f := withMem m) (fun _ _ => rfl) 32 0 s) (hreg := fun _ _ _ => rfl)
  case cond => intro src; cases src <;> rfl
  case retire => intro k x; cases k <;> rfl
  case load =>
    exact loadList_withMem i t s m ht (agreeFrom_of_distance _ _ _ _ t.imm32.isLt.le (hagree t ht))
  case back =>
    unfold writeBack
    split <;> rfl

end Sys2Proof.Machine
